-- ==== Sys2Proof/Word.lean ====
section
/-! DEFINITION. The words of the block: the byte, the 16-bit count and the destination id (spec/00_scope.md R13, R14). -/

namespace Sys2Proof

/-- `u8`, an unsigned byte (R13). -/
abbrev Byte := BitVec 8

/-- `u16`, an unsigned 16-bit count (R13). -/
abbrev U16 := BitVec 16

/-- A destination id as it is given on a 3-bit input (R93). -/
abbrev Dest := BitVec 3

/-- `buffer[a]` and its like: a sequence of bytes (R14). -/
abbrev Bytes := List Byte

end Sys2Proof
end

