-- ==== Sys2Proof/Config.lean ====
section
/-! DEFINITION. The parameter record of spec/00_scope.md section 4: the literals the spec gives a value (R7 to R9), and the
configuration fields the integrator sets (R9 to R11, R33). The values are in Machine/Literals.lean. -/

namespace Sys2Proof

/-- The constants the spec gives a value (R7, R8, R9 and the summary table of 00_scope.md section 4); every definition takes
them from the one record `lit` (R12), so that a corrected literal changes one field. -/
structure Literals where
  /-- `START_MAGIC`, the leading byte of a start frame (R7). -/
  startMagic : Byte
  /-- `CONT_MAGIC`, the leading byte of a continuation frame (R7). -/
  contMagic : Byte
  /-- The placeholder the encoder writes in byte 3 of a start frame (R61, R70). -/
  placeholder : Byte
  /-- `FRAME_MAX`, the largest number of data bytes in a frame (R8). -/
  frameMax : Nat
  /-- `START_HDR`, the header bytes of a start frame (R8). -/
  startHdr : Nat
  /-- `CONT_HDR`, the header bytes of a continuation frame (R8). -/
  contHdr : Nat
  /-- `START_CHUNK_MAX`, the most message bytes a start frame carries (R8). -/
  startChunkMax : Nat
  /-- `CONT_CHUNK_MAX`, the most message bytes a continuation frame carries (R8). -/
  contChunkMax : Nat
  /-- `ID_BASE` (R9). -/
  idBase : Nat
  /-- `ID_WIDTH`, the width in bits of a bus identifier (R9; log 13). -/
  idWidth : Nat
  /-- `DEST_MIN` (R9). -/
  destMin : Nat
  /-- `DEST_MAX` (R9). -/
  destMax : Nat
  /-- `MSG_LEN_MAX`, the largest `totalLength` (00_scope.md section 4). -/
  msgLenMax : Nat
  /-- `SEQ_MOD`, the modulus of sequence arithmetic (00_scope.md section 4, D3). -/
  seqMod : Nat
  deriving DecidableEq, Repr

/-- The relations the rules depend on (R7, R8, R12). -/
def Literals.related (w : Literals) : Prop :=
  w.startMagic ≠ w.contMagic ∧
    w.startHdr + w.startChunkMax = w.frameMax ∧
    w.contHdr + w.contChunkMax = w.frameMax ∧
    w.idBase + w.destMax < 2 ^ w.idWidth ∧
    w.msgLenMax = 2 ^ 16 - 1 ∧ w.seqMod = 2 ^ 8

/-- The configuration fields (R33): read-only for the block, fixed for a run, not changed by reset. -/
structure Config where
  /-- `SELF_ID`, the destination id of the node the block sits in (R9). -/
  selfId : Dest
  /-- `CAPACITY`, the number of bytes of the accumulation buffer (R10). -/
  capacity : U16
  /-- `PAD_ENABLE` (R11). -/
  padEnable : Bool := false
  /-- `PAD_BYTE` (R11). -/
  padByte : Byte := 0x00
  deriving DecidableEq, Repr

end Sys2Proof
end

