-- ==== Sys2Proof/Machine/Literals.lean ====
section
/-! DEFINITION. The values of the spec's literals (spec/00_scope.md R7, R8, R9, R12) and the legal range of the configuration
fields (R33, R173). -/

namespace Sys2Proof

/-- This hardware's values of the literals (R7, R8, R9). The spec says they are unaudited against the original's code (R12,
D25; log 16). -/
def lit : Literals where
  startMagic := 0xAA
  contMagic := 0xCC
  placeholder := 0x00
  frameMax := 8
  startHdr := 4
  contHdr := 2
  startChunkMax := 4
  contChunkMax := 6
  idBase := 0x200
  idWidth := 11
  destMin := 1
  destMax := 5
  msgLenMax := 65535
  seqMod := 256

/-- A bus identifier, `ID_WIDTH` bits (R15; the width is PRESUMED, log 13). -/
abbrev BusId := BitVec lit.idWidth

/-- `n` is one of the destinations `DEST_MIN .. DEST_MAX` (R9). -/
abbrev legalDestination (n : Nat) : Prop := lit.destMin ≤ n ∧ n ≤ lit.destMax

/-- The 3-bit destination `d` is legal; 0, 6 and 7 are not (R73). -/
abbrev Dest.legal (d : Dest) : Prop := legalDestination d.toNat

/-- The legal configurations: `SELF_ID` in `1 .. 5`, `CAPACITY` in `1 .. 65535` (R33, R173). -/
abbrev Config.legal (c : Config) : Prop := Dest.legal c.selfId ∧ 1 ≤ c.capacity.toNat

end Sys2Proof
end

