-- ==== Sys2Proof/Syntax.lean ====
section
/-! DEFINITION. Frames, frame kinds and the instructions: one constructor of `Instr` per row of spec/opcode_table.json. -/

namespace Sys2Proof

/-- A frame: a bus identifier and 0 to 8 data bytes (R15, R60). The bound on the length is in `Frame.wf`. -/
structure Frame where
  /-- `f.id`. -/
  id : BusId
  /-- `f.data`; `f.len` is its length. -/
  data : Bytes
  deriving DecidableEq, Repr

/-- The kind a malformed frame looks like (R100). -/
inductive Apparent where
  | start
  | continuation
  deriving DecidableEq, Repr

/-- `FrameKind`, the result of decoding a frame (R100, C3). -/
inductive FrameKind where
  | start (totalLength : U16) (chunk : Bytes)
  | continuation (seq : Byte) (chunk : Bytes)
  | unknown
  | malformed (apparent : Apparent)
  deriving DecidableEq, Repr

/-- The instructions: the five classes of wire frame, the operations and the two pseudo-operations (spec/opcode_table.json).
A wire frame as an instruction is that frame, addressed to this node, given to the reassembler (log 3). -/
inductive Instr where
  /-- `START`, a start frame (R61); the placeholder is data byte 3 (R70). -/
  | start (totalLength : U16) (placeholder : Byte) (chunk : Bytes)
  /-- `CONT`, a continuation frame (R62). -/
  | cont (seq : Byte) (chunk : Bytes)
  /-- `MALFORMED_START`: the start magic and fewer bytes after it than the header needs (R69). -/
  | malformedStart (tail : Bytes)
  /-- `MALFORMED_CONT`: the continuation magic alone (R69). -/
  | malformedCont
  /-- `UNKNOWN`: no data byte, or a leading byte that is neither magic (R68). -/
  | unknown (data : Bytes)
  /-- `ENC_START` (R90). -/
  | encStart (dest : Dest) (totalLength : U16) (chunk : Bytes)
  /-- `ENC_CONT` (R91). -/
  | encCont (dest : Dest) (seq : Byte) (chunk : Bytes)
  /-- `DECODE` (R101): only the frame's data takes part (R103). -/
  | decodeFrame (data : Bytes)
  /-- `RX_FRAME` (R110). -/
  | rxFrame (f : Frame)
  /-- `RESET` (R170). -/
  | reset
  /-- `RESERVED_OP`: selector 5, 6 or 7 (R76). -/
  | reservedOp (op : BitVec 3)
  /-- `SEND_MSG` (R80). R80 gives the host's destination id no width, so it is any number. -/
  | sendMsg (dest : Nat) (msg : Bytes)
  /-- `RECV_POLL` (R82). -/
  | recvPoll
  deriving DecidableEq, Repr

end Sys2Proof
end

