-- ==== Sys2Proof/WellFormed.lean ====
section
/-! DEFINITION. The instructions the encodings can hold. Only well-formed instructions come out of the decoder. -/

namespace Sys2Proof

/-- A frame has at most `FRAME_MAX` data bytes (R15, R60, R72). -/
abbrev Frame.wf (f : Frame) : Prop := f.data.length ≤ lit.frameMax

/-- `d` has a leading byte, and it is the byte `b`. -/
def Bytes.leads (d : Bytes) (b : Byte) : Bool := d.head? == some b

/-- A chunk operand of an encoder request counts its bytes in one byte; a chunk above the encoder's own limit is well formed
and faults (R94; log 2). -/
abbrev chunkCountMax : Nat := 255

/-- A `SEND_MSG` request gives its destination in one byte (log 2). -/
abbrev sendDestBytes : Nat := 1

/-- A `SEND_MSG` request counts its message bytes in 32 bits, the host's own wider length (C9; log 2). -/
abbrev msgCountBytes : Nat := 4

/-- Well-formedness of an instruction. -/
def Instr.wf : Instr → Bool
  | .start _ _ chunk => decide (chunk.length ≤ lit.startChunkMax)
  | .cont _ chunk => decide (chunk.length ≤ lit.contChunkMax)
  | .malformedStart tail => decide (tail.length + 1 < lit.startHdr)
  | .malformedCont => true
  | .unknown data =>
      decide (data.length ≤ lit.frameMax) && !Bytes.leads data lit.startMagic && !Bytes.leads data lit.contMagic
  | .encStart _ _ chunk => decide (chunk.length ≤ chunkCountMax)
  | .encCont _ _ chunk => decide (chunk.length ≤ chunkCountMax)
  | .decodeFrame data => decide (data.length ≤ lit.frameMax)
  | .rxFrame f => decide f.wf
  | .reset => true
  | .reservedOp op => decide (5 ≤ op.toNat)
  | .sendMsg dest msg => decide (dest < 256 ^ sendDestBytes) && decide (msg.length < 256 ^ msgCountBytes)
  | .recvPoll => true

end Sys2Proof
end

