-- ==== Sys2Proof/Decode.lean ====
section
/-! DEFINITION. The decoder of frames (spec/41_codec_decode.md R101, spec/30_encoding.md R66), the decoder of requests written as
bytes, total on any bytes and rejecting by name, and the encoders that invert them. The selectors 0 to 7 are the spec's (R76); the
rest of a request's byte layout is the model's own: it serves to read the opcode table's words, a step takes an operation and no
bytes (D24, D29: no behaviour depends on it; log 2). -/

namespace Sys2Proof

/-! ## Byte order (R44, R63) -/

/-- `totalLength & 0xFF` (R63). -/
def loByte (v : U16) : Byte := v.setWidth 8

/-- `totalLength >> 8` (R63). -/
def hiByte (v : U16) : Byte := (v >>> 8).setWidth 8

/-- `zext_16(lo) | (zext_16(hi) << 8)` (R63). -/
def joinBytes (lo hi : Byte) : U16 := lo.setWidth 16 ||| (hi.setWidth 16 <<< 8)

/-- The `k` low bytes of `n`, least significant first. -/
def natToBytes : Nat → Nat → Bytes
  | 0, _ => []
  | k + 1, n => BitVec.ofNat 8 n :: natToBytes k (n / 256)

/-- The number a byte sequence denotes, least significant byte first. -/
def bytesToNat : Bytes → Nat
  | [] => 0
  | b :: bs => b.toNat + 256 * bytesToNat bs

/-! ## Frames (R66, R101) -/

/-- `DECODE` (R101): the kind of a frame with data `d`, and its fields. Byte 3 of a start frame is not read (R70). -/
def decodeKind (d : Bytes) : FrameKind :=
  match d with
  | [] => .unknown
  | magic :: _ =>
    if magic = lit.startMagic then
      if d.length < lit.startHdr then .malformed .start
      else .start (joinBytes (d.getD 1 0) (d.getD 2 0)) (d.drop lit.startHdr)
    else if magic = lit.contMagic then
      if d.length < lit.contHdr then .malformed .continuation
      else .continuation (d.getD 1 0) (d.drop lit.contHdr)
    else .unknown

/-- The wire frame with data `d` as an instruction: the row of the opcode table its length and leading byte select (R66),
with every data byte kept. -/
def wireInstr (d : Bytes) : Instr :=
  match decodeKind d with
  | .start totalLength chunk => .start totalLength (d.getD 3 0) chunk
  | .continuation seq chunk => .cont seq chunk
  | .unknown => .unknown d
  | .malformed .start => .malformedStart d.tail
  | .malformed .continuation => .malformedCont

/-- The data bytes of a start frame (R61). -/
def startData (totalLength : U16) (placeholder : Byte) (chunk : Bytes) : Bytes :=
  [lit.startMagic, loByte totalLength, hiByte totalLength, placeholder] ++ chunk

/-- The data bytes of a continuation frame (R62). -/
def contData (seq : Byte) (chunk : Bytes) : Bytes := [lit.contMagic, seq] ++ chunk

/-! ## Requests -/

/-- Why bytes are no request. -/
inductive DecodeError where
  /-- A leading byte that selects nothing. -/
  | unknownRequest
  /-- The request ends before its operands do. -/
  | truncated
  /-- A frame length above `FRAME_MAX`: `len` 9 to 15, and what four bits cannot hold (R72, D14). -/
  | reservedFrameLength
  /-- A byte holds more bits than its field has: a destination above 3 bits, an identifier above 11. -/
  | reservedBits
  deriving DecidableEq, Repr

/-- What the leading byte of a request selects. -/
inductive Selector where
  | encStart
  | encCont
  | decodeFrame
  | rxFrame
  | reset
  | reserved (op : BitVec 3)
  | wire
  | sendMsg
  | recvPoll
  deriving DecidableEq, Repr

/-- The leading byte of a request: the selector `op[2:0]` in the low three bits (R76), and three codes of the model's own above
them for what has no selector, a wire frame and the two pseudo-operations (log 2). -/
def Selector.code : Selector → Byte
  | .encStart => 0x00
  | .encCont => 0x01
  | .decodeFrame => 0x02
  | .rxFrame => 0x03
  | .reset => 0x04
  | .reserved op => op.setWidth 8
  | .wire => 0x08
  | .sendMsg => 0x10
  | .recvPoll => 0x18

/-- The selector of a leading byte, if it selects anything. -/
def Selector.ofByte (b : Byte) : Option Selector :=
  if b = Selector.encStart.code then some .encStart
  else if b = Selector.encCont.code then some .encCont
  else if b = Selector.decodeFrame.code then some .decodeFrame
  else if b = Selector.rxFrame.code then some .rxFrame
  else if b = Selector.reset.code then some .reset
  else if b.toNat < 8 then some (.reserved (b.setWidth 3))
  else if b = Selector.wire.code then some .wire
  else if b = Selector.sendMsg.code then some .sendMsg
  else if b = Selector.recvPoll.code then some .recvPoll
  else none

/-- A parser: a value and the bytes after it, or the reason there is none. -/
abbrev Parser (α : Type) := Bytes → Except DecodeError (α × Bytes)

/-- Run `p`, then `k` on its value and the bytes after it. -/
def Parser.andThen {α β : Type} (p : Parser α) (k : α → Parser β) : Parser β := fun bs =>
  match p bs with
  | .ok (a, rest) => k a rest
  | .error e => .error e

/-- Answer `a`, taking no byte. -/
def Parser.done {α : Type} (a : α) : Parser α := fun bs => .ok (a, bs)

/-- Reject. -/
def Parser.reject {α : Type} (e : DecodeError) : Parser α := fun _ => .error e

/-- Take one byte. -/
def takeByte : Parser Byte
  | [] => .error .truncated
  | b :: bs => .ok (b, bs)

/-- Take `n` bytes. -/
def takeBytes (n : Nat) : Parser Bytes := fun bs =>
  if n ≤ bs.length then .ok (bs.take n, bs.drop n) else .error .truncated

/-- Take `k` bytes, least significant first, as a number. -/
def takeNat (k : Nat) : Parser Nat :=
  Parser.andThen (takeBytes k) fun bs => Parser.done (bytesToNat bs)

/-- Take a destination operand `dest[2:0]`, one byte whose upper bits are zero (R76, R93). -/
def takeDest : Parser Dest :=
  Parser.andThen takeByte fun b => if b.toNat < 8 then Parser.done (b.setWidth 3) else Parser.reject .reservedBits

/-- Take an identifier `id[10:0]`, two bytes, low byte first, whose upper bits are zero (R60). -/
def takeId : Parser BusId :=
  Parser.andThen (takeNat 2) fun n =>
    if n < 2 ^ lit.idWidth then Parser.done (BitVec.ofNat lit.idWidth n) else Parser.reject .reservedBits

/-- Take a 16-bit operand, low byte first. -/
def takeU16 : Parser U16 :=
  Parser.andThen takeByte fun lo => Parser.andThen takeByte fun hi => Parser.done (joinBytes lo hi)

/-- Take a chunk operand: a count byte, then that many bytes. -/
def takeChunk : Parser Bytes := Parser.andThen takeByte fun n => takeBytes n.toNat

/-- Take a frame's `len` and data (R60): `len` above `FRAME_MAX` denotes no frame and is rejected (R72). -/
def takeData : Parser Bytes :=
  Parser.andThen takeByte fun n =>
    if n.toNat ≤ lit.frameMax then takeBytes n.toNat else Parser.reject .reservedFrameLength

/-- The operands of a request, by its selector. -/
def decodeOperands : Selector → Parser Instr
  | .encStart =>
      Parser.andThen takeDest fun dest =>
        Parser.andThen takeU16 fun totalLength =>
          Parser.andThen takeChunk fun chunk => Parser.done (.encStart dest totalLength chunk)
  | .encCont =>
      Parser.andThen takeDest fun dest =>
        Parser.andThen takeByte fun seq =>
          Parser.andThen takeChunk fun chunk => Parser.done (.encCont dest seq chunk)
  | .decodeFrame => Parser.andThen takeData fun data => Parser.done (.decodeFrame data)
  | .rxFrame =>
      Parser.andThen takeId fun id => Parser.andThen takeData fun data => Parser.done (.rxFrame ⟨id, data⟩)
  | .reset => Parser.done .reset
  | .reserved op => Parser.done (.reservedOp op)
  | .wire => Parser.andThen takeData fun data => Parser.done (wireInstr data)
  | .sendMsg =>
      Parser.andThen (takeNat sendDestBytes) fun dest =>
        Parser.andThen (takeNat msgCountBytes) fun n =>
          Parser.andThen (takeBytes n) fun msg => Parser.done (.sendMsg dest msg)
  | .recvPoll => Parser.done .recvPoll

/-- The decoder of requests: the instruction at the front of the bytes, and the bytes after it. -/
def decode : Parser Instr :=
  Parser.andThen takeByte fun b =>
    match Selector.ofByte b with
    | some sel => decodeOperands sel
    | none => Parser.reject .unknownRequest

/-! ## The encoder of requests -/

/-- What an instruction's leading byte selects. -/
def Instr.selector : Instr → Selector
  | .start _ _ _ => .wire
  | .cont _ _ => .wire
  | .malformedStart _ => .wire
  | .malformedCont => .wire
  | .unknown _ => .wire
  | .encStart _ _ _ => .encStart
  | .encCont _ _ _ => .encCont
  | .decodeFrame _ => .decodeFrame
  | .rxFrame _ => .rxFrame
  | .reset => .reset
  | .reservedOp op => .reserved op
  | .sendMsg _ _ => .sendMsg
  | .recvPoll => .recvPoll

/-- A count byte, then the bytes. -/
def countedBytes (bs : Bytes) : Bytes := BitVec.ofNat 8 bs.length :: bs

/-- The bytes of an instruction after its leading byte. -/
def encodeOperands : Instr → Bytes
  | .start totalLength placeholder chunk => countedBytes (startData totalLength placeholder chunk)
  | .cont seq chunk => countedBytes (contData seq chunk)
  | .malformedStart tail => countedBytes (lit.startMagic :: tail)
  | .malformedCont => countedBytes [lit.contMagic]
  | .unknown data => countedBytes data
  | .encStart dest totalLength chunk =>
      dest.setWidth 8 :: loByte totalLength :: hiByte totalLength :: countedBytes chunk
  | .encCont dest seq chunk => dest.setWidth 8 :: seq :: countedBytes chunk
  | .decodeFrame data => countedBytes data
  | .rxFrame f => natToBytes 2 f.id.toNat ++ countedBytes f.data
  | .reset => []
  | .reservedOp _ => []
  | .sendMsg dest msg => natToBytes sendDestBytes dest ++ (natToBytes msgCountBytes msg.length ++ msg)
  | .recvPoll => []

/-- The encoder of requests. -/
def encode (i : Instr) : Bytes := i.selector.code :: encodeOperands i

/-! ## The opcode table's words -/

/-- The most bytes the operands of a table word can lack: those of an `RX_FRAME` or an encoder request with empty sequences. -/
def operandZeros : Bytes := List.replicate 8 0

/-- The request bytes of a word of the opcode table. A 64-bit word is a wire frame of 8 data bytes, data byte 0 in bits 63:56
(the table's "word" note); any other word is a request, its leading byte in the low byte, the operand bytes above it zero
(log 18). -/
def tableBytes (nbits w : Nat) : Bytes :=
  if nbits = 8 * lit.frameMax then Selector.wire.code :: countedBytes (natToBytes lit.frameMax w).reverse
  else natToBytes ((nbits + 7) / 8) w ++ operandZeros

/-- The instruction the decoder reads from a word of the opcode table. -/
def decodeTableWord (nbits w : Nat) : Option Instr :=
  match decode (tableBytes nbits w) with
  | .ok (i, _) => some i
  | .error _ => none

end Sys2Proof
end

