-- ==== Sys2Proof/Machine/State.lean ====
section
/-! DEFINITION. The state of the machine, its outcomes and its reset value (spec/10_state.md). ReassemblyState is the spec's
whole architectural state (R21); the configuration fields are R33's; the block's inputs and output, which a step has to read from
and write to, stand beside them (log 1, 6, 10). -/

namespace Sys2Proof.Machine

open Sys2Proof

/-- The accumulation buffer as the bytes that differ from what an unlisted index reads as, by rising index (R25, R41). -/
abbrev Memory := List Host.Cell

/-- ReassemblyState (R21): "an owned struct passed by reference into the Reassembler's transition function". -/
structure ReassemblyState where
  /-- The `totalLength` of the message being assembled (R22). -/
  expectedLength : U16
  /-- The number of message bytes stored so far, and the index of the next one (R23). -/
  receivedLength : U16
  /-- The sequence number the next continuation frame must carry (R24). -/
  nextSeq : Byte
  /-- The FSM state: `false` is `Idle`, `true` is `Assembling` (R26). -/
  assembling : Bool
  /-- The accumulation buffer (R25). -/
  buffer : Memory
  deriving DecidableEq, Repr

/-- `ReassemblyError`, the four errors (R140). -/
inductive ReassemblyError where
  /-- A start frame declares more than `CAPACITY` bytes (R141). -/
  | exceedsCapacity
  /-- A continuation frame while `Assembling` with another sequence number (R142). -/
  | sequenceMismatch
  /-- A continuation frame while `Idle` (R143). -/
  | unexpectedContinuation
  /-- A frame shorter than the header of its apparent kind (R144). -/
  | malformed
  deriving DecidableEq, Repr

/-- The event of an `RX_FRAME` step (R31). -/
inductive Event where
  | stillAssembling
  | complete (message : Bytes)
  | aborted (e : ReassemblyError)
  | ignored
  | filtered
  deriving DecidableEq, Repr

/-- What `SEND_MSG` reports to its caller instead of sending (R80, R148). -/
inductive SendError where
  | invalidTarget
  | messageTooLong
  deriving DecidableEq, Repr

/-- The outcome of an operation, as the host gets it (R76, R174). -/
inductive Response where
  /-- An encoder operation's frame. -/
  | frame (f : Frame)
  /-- `DECODE`'s result. -/
  | kind (k : FrameKind)
  /-- The event of a received frame. -/
  | event (e : Event)
  /-- `SEND_MSG`'s frames, in order. -/
  | frames (fs : List Frame)
  /-- `SEND_MSG` rejected its operands. -/
  | sendRejected (e : SendError)
  deriving DecidableEq, Repr

/-- The state of the machine. -/
structure State where
  /-- The configuration fields (R33): no operation writes them. -/
  cfg : Config
  /-- ReassemblyState (R21). -/
  ra : ReassemblyState
  /-- A `RESET` has been issued: the launch premise of `RX_FRAME` (R171, D26; log 5). -/
  resetDone : Bool
  /-- Input: the operations the host will issue, in order, each with its operands (R20, R36, D29; log 1). -/
  requests : List Instr
  /-- Input: the frames the link driver has received and holds for the polling loop, oldest first (R35, R82, R176; log 6). -/
  linkRx : List Frame
  /-- Output: what the last operation gave back to the host, if anything (R31, R174; log 10). -/
  response : Option Response
  deriving DecidableEq, Repr

/-- Why the machine stops with a fault. -/
inductive Fault where
  /-- `fault(EncChunkTooLong)`: `ENC_START` with a chunk above 4 bytes, `ENC_CONT` with one above 6 (R94, R146). Safe: the run has
  no final state, as the spec says. -/
  | encChunkTooLong
  /-- `fault(EncBadDest)`: an encoder operation with a destination outside 1 .. 5 (R93, R94). Safe, as above. -/
  | encBadDest
  /-- An access to the buffer at an index not below `CAPACITY`, which does not exist (R41). Raised by the reassembler in states
  that break R27 only, so in no state a run reaches after a `RESET`. Safe (log 8). -/
  | bufferIndexOutOfRange
  deriving DecidableEq, Repr

/-- Why the machine gives an operation no meaning. -/
inductive Refusal where
  /-- An instruction of the table that has no meaning yet, by its mnemonic. None is left. Safe. -/
  | notModelled (mnemonic : String)
  /-- Selector 5, 6 or 7 (R76, U15). Raised by `RESERVED_OP`. Safe. -/
  | reservedOperation
  /-- A frame reaches the reassembler before the first `RESET` (R171, U11). Raised by `RX_FRAME`, the wire frames and
  `RECV_POLL`. Safe. -/
  | beforeReset
  /-- A frame of more than `FRAME_MAX` data bytes, which denotes no frame (R72, U14). Raised by every operation that takes a
  frame: `DECODE`, `RX_FRAME`, the wire frames and `RECV_POLL`. Safe. -/
  | reservedFrameLength
  /-- The configuration is outside its legal range (R33, R173, U16). Raised by the step, whatever the operation. Safe. -/
  | illegalConfiguration
  deriving DecidableEq, Repr

/-- The outcome of an operation on the machine. -/
abbrev Result := Host.Outcome State Fault Refusal

/-- The reset value of ReassemblyState: all zero, `Idle` (R37). The empty list is the buffer whose every byte is 0. -/
def ReassemblyState.reset : ReassemblyState where
  expectedLength := 0
  receivedLength := 0
  nextSeq := 0
  assembling := false
  buffer := []

/-- The configuration of the reference machine: `CAPACITY = 2048` and `SELF_ID = 3`, the configuration of the spec's examples
(R10, 42_reassembler.md's heading). DESIGN CHOICE, unsafe for a claim that rests on it: both are OPEN in the spec (log 4). -/
def Config.reference : Config where
  selfId := 3
  capacity := 2048

/-- The machine right after `RESET` (R37, R170), with nothing asked of it yet. -/
def State.reset : State where
  cfg := Config.reference
  ra := ReassemblyState.reset
  resetDone := true
  requests := []
  linkRx := []
  response := none

end Sys2Proof.Machine
end

