-- ==== Sys2Proof/Machine/Ops.lean ====
section
/-! DEFINITION. The named operations: the buffer (spec/20_memory.md R41), the reassembler's helpers (spec/42_reassembler.md R112,
R113, R122), raising an abort (R17, R151), and answering the host. -/

namespace Sys2Proof.Machine

open Sys2Proof

/-! ## The buffer -/

/-- What a byte of the buffer that is not listed reads as: `RESET` leaves every byte 0 (R37; log 20). -/
def Memory.unlisted : Byte := 0x00

/-- The byte at index `a`. -/
def Memory.read : Memory → Nat → Byte
  | [], _ => Memory.unlisted
  | (k, v) :: m, a => if k = a then v else Memory.read m a

/-- The cell of index `a` and byte `v`, unless it need not be listed. -/
def Memory.cell (a : Nat) (v : Byte) : Memory := if v = Memory.unlisted then [] else [(a, v)]

/-- Set the byte at index `a` to `v`, keeping the canonical form. -/
def Memory.write : Memory → Nat → Byte → Memory
  | [], a, v => Memory.cell a v
  | (k, w) :: m, a, v =>
    if a < k then Memory.cell a v ++ (k, w) :: m
    else if a = k then Memory.cell a v ++ m
    else (k, w) :: Memory.write m a v

/-- The canonical form: indices strictly rising, no listed byte equal to what an unlisted index reads as. -/
abbrev Memory.wf (m : Memory) : Prop :=
  List.Pairwise (fun x y : Host.Cell => x.1 < y.1) m ∧ ∀ c ∈ m, c.2 ≠ Memory.unlisted

/-- Every listed index is below `cap`. -/
abbrev Memory.within (cap : Nat) (m : Memory) : Prop := ∀ c ∈ m, c.1 < cap

/-- `MemRead(a, 1)` in a buffer of `cap` bytes (R16, R41). -/
def memRead (cap : Nat) (m : Memory) (a : Nat) : Except Fault Byte :=
  if a < cap then .ok (m.read a) else .error .bufferIndexOutOfRange

/-- `MemWrite(a, 1, v)` in a buffer of `cap` bytes (R16, R41). -/
def memWrite (cap : Nat) (m : Memory) (a : Nat) (v : Byte) : Except Fault Memory :=
  if a < cap then .ok (m.write a v) else .error .bufferIndexOutOfRange

/-- `MemWrite(a + i, 1, bs[i])` for `i` from 0 up (the loop of R113). -/
def memWriteAll (cap : Nat) : Memory → Nat → Bytes → Except Fault Memory
  | m, _, [] => .ok m
  | m, a, b :: bs =>
    match memWrite cap m a b with
    | .ok m' => memWriteAll cap m' (a + 1) bs
    | .error r => .error r

/-- `[ MemRead(a, 1), ..., MemRead(a + n - 1, 1) ]` (R122). -/
def memReadAll (cap : Nat) (m : Memory) : Nat → Nat → Except Fault Bytes
  | _, 0 => .ok []
  | a, n + 1 =>
    match memRead cap m a with
    | .error r => .error r
    | .ok b =>
      match memReadAll cap m (a + 1) n with
      | .ok bs => .ok (b :: bs)
      | .error r => .error r

/-! ## The reassembler's helpers -/

/-- A step of the reassembler: the next ReassemblyState and the event, or a fault. -/
abbrev RaResult := Except Fault (ReassemblyState × Event)

/-- `CAPACITY` as a number. -/
abbrev capacityOf (cfg : Config) : Nat := cfg.capacity.toNat

/-- `ReturnToIdle()` (R112): the scalars to zero, the buffer left as it is (D11; log 15). -/
def returnToIdle (ra : ReassemblyState) : ReassemblyState :=
  { ra with assembling := false, expectedLength := 0, receivedLength := 0, nextSeq := 0 }

/-- `raise Aborted(e)` (R17, R151), the block's taking of an exception: `ReturnToIdle()`, then the event. Nothing is saved and
there is no handler and no return operation (R151, R152). -/
def raiseAborted (e : ReassemblyError) (ra : ReassemblyState) : RaResult := .ok (returnToIdle ra, .aborted e)

/-- `emit E` (R17) with the state as it is. -/
def emit (e : Event) (ra : ReassemblyState) : RaResult := .ok (ra, e)

/-- The number of bytes of `chunk` the message still needs: `min(|chunk|, expectedLength - receivedLength)` (R113). In a state
that breaks R27 item 2 the difference is 0 (log 9). -/
def needed (ra : ReassemblyState) (chunk : Bytes) : Nat :=
  min chunk.length (ra.expectedLength.toNat - ra.receivedLength.toNat)

/-- `StoreChunk(chunk)` (R113). -/
def storeChunk (cfg : Config) (chunk : Bytes) (ra : ReassemblyState) : Except Fault ReassemblyState :=
  match memWriteAll (capacityOf cfg) ra.buffer ra.receivedLength.toNat (chunk.take (needed ra chunk)) with
  | .ok m => .ok { ra with buffer := m, receivedLength := ra.receivedLength + BitVec.ofNat 16 (needed ra chunk) }
  | .error r => .error r

/-- `CheckComplete()` (R122). The message is a copy (R32). -/
def checkComplete (cfg : Config) (ra : ReassemblyState) : RaResult :=
  if ra.expectedLength.toNat ≤ ra.receivedLength.toNat then
    match memReadAll (capacityOf cfg) ra.buffer 0 ra.expectedLength.toNat with
    | .ok m => .ok (returnToIdle ra, .complete m)
    | .error r => .error r
  else emit .stillAssembling ra

/-- `StoreChunk(chunk)`, then `CheckComplete()`: the end of R114 and of R116. -/
def storeAndCheck (cfg : Config) (chunk : Bytes) (ra : ReassemblyState) : RaResult :=
  match storeChunk cfg chunk ra with
  | .ok ra' => checkComplete cfg ra'
  | .error r => .error r

/-! ## Answering the host -/

/-- Give `r` back to the host (R174). -/
def State.respond (s : State) (r : Response) : State := { s with response := some r }

/-- Answer with a frame of the encoder, or fault (R94). -/
def respondFrame (s : State) : Except Fault Frame → Result
  | .ok f => .next (s.respond (.frame f))
  | .error r => .fault r

/-- Give the reassembler a frame: run `step` on ReassemblyState, and answer with its event. Before the first `RESET` this is
refused (R171; log 5). -/
def receive (step : Config → ReassemblyState → RaResult) (s : State) : Result :=
  if s.resetDone then
    match step s.cfg s.ra with
    | .ok (ra, e) => .next { s with ra := ra, response := some (.event e) }
    | .error r => .fault r
  else .refused .beforeReset

end Sys2Proof.Machine
end

