-- ==== Sys2Proof/Machine/Operands.lean ====
section
/-! DEFINITION. The operand forms: the identifier formed from a destination (spec/40_codec_encode.md R93), the data sequence the
encoder emits (R92), the frame given to an operation (spec/30_encoding.md R60, R72) and the identifier filter's test
(spec/42_reassembler.md R111). -/

namespace Sys2Proof.Machine

open Sys2Proof

/-- `ID_BASE + d` as an identifier (R9, R93). -/
def idOf (d : Dest) : BusId := BitVec.ofNat lit.idWidth (lit.idBase + d.toNat)

/-- `MakeId(dest)` (R93). -/
def makeId (dest : Dest) : Except Fault BusId :=
  if Dest.legal dest then .ok (idOf dest) else .error .encBadDest

/-- `Pad(d)` (R92). -/
def pad (cfg : Config) (d : Bytes) : Bytes :=
  if cfg.padEnable then d ++ List.replicate (lit.frameMax - d.length) cfg.padByte else d

/-- The last lines of R90 and R91: the chunk's length is checked first, then the identifier is formed, then the data `d` padded. -/
def buildFrame (cfg : Config) (dest : Dest) (chunkMax : Nat) (chunk : Bytes) (d : Bytes) : Except Fault Frame :=
  if chunkMax < chunk.length then .error .encChunkTooLong
  else
    match makeId dest with
    | .ok id => .ok ⟨id, pad cfg d⟩
    | .error r => .error r

/-- `ENC_START(dest, totalLength, chunk)` (R90). -/
def encodeStart (cfg : Config) (dest : Dest) (totalLength : U16) (chunk : Bytes) : Except Fault Frame :=
  buildFrame cfg dest lit.startChunkMax chunk (startData totalLength lit.placeholder chunk)

/-- `ENC_CONT(dest, seq, chunk)` (R91). -/
def encodeCont (cfg : Config) (dest : Dest) (seq : Byte) (chunk : Bytes) : Except Fault Frame :=
  buildFrame cfg dest lit.contChunkMax chunk (contData seq chunk)

/-- A frame of `n` data bytes given to an operation: above `FRAME_MAX` it denotes no frame (R72; log 19). -/
def withFrame (n : Nat) (k : Result) : Result :=
  if n ≤ lit.frameMax then k else .refused .reservedFrameLength

/-- The frame's identifier is this node's own: `f.id = ID_BASE + SELF_ID` (R111). -/
abbrev addressed (cfg : Config) (f : Frame) : Prop := f.id = idOf cfg.selfId

end Sys2Proof.Machine
end

