-- ==== Sys2Proof/Machine/Codec.lean ====
section
/-! DEFINITION. The meanings of the codec's operations: `ENC_START` and `ENC_CONT` (spec/40_codec_encode.md R90, R91) and `DECODE`
(spec/41_codec_decode.md R101). They read and write nothing of ReassemblyState (R20). -/

namespace Sys2Proof.Machine

open Sys2Proof

/-- `ENC_START` (R90). -/
def execEncStart (dest : Dest) (totalLength : U16) (chunk : Bytes) (s : State) : Result :=
  respondFrame s (encodeStart s.cfg dest totalLength chunk)

/-- `ENC_CONT` (R91). -/
def execEncCont (dest : Dest) (seq : Byte) (chunk : Bytes) (s : State) : Result :=
  respondFrame s (encodeCont s.cfg dest seq chunk)

/-- `DECODE` (R101). -/
def execDecodeFrame (data : Bytes) (s : State) : Result :=
  withFrame data.length (.next (s.respond (.kind (decodeKind data))))

end Sys2Proof.Machine
end

