-- ==== Sys2Proof/Machine/Reassembler.lean ====
section
/-! DEFINITION. The reassembler (spec/42_reassembler.md): one definition per transition rule, `RA_STEP`, and the meanings of the
wire frames and of `RX_FRAME`. -/

namespace Sys2Proof.Machine

open Sys2Proof

/-! ## The transition rules -/

/-- R114: a start frame is accepted, in either state. -/
def startAccepted (totalLength : U16) (chunk : Bytes) (cfg : Config) (ra : ReassemblyState) : RaResult :=
  storeAndCheck cfg chunk
    { ra with expectedLength := totalLength, receivedLength := 0, nextSeq := 1, assembling := true }

/-- R115: a start frame that exceeds capacity, in either state. -/
def startExceeds (ra : ReassemblyState) : RaResult := raiseAborted .exceedsCapacity ra

/-- R116: a continuation frame is accepted. `nextSeq + 1` wraps modulo 256 (R24, D3). -/
def contAccepted (chunk : Bytes) (cfg : Config) (ra : ReassemblyState) : RaResult :=
  storeAndCheck cfg chunk { ra with nextSeq := ra.nextSeq + 1 }

/-- R117: a continuation frame out of sequence. -/
def contMismatch (ra : ReassemblyState) : RaResult := raiseAborted .sequenceMismatch ra

/-- R118: a continuation frame while `Idle`. -/
def contUnexpected (ra : ReassemblyState) : RaResult := raiseAborted .unexpectedContinuation ra

/-- R119: an unknown frame. -/
def unknownFrame (ra : ReassemblyState) : RaResult := emit .ignored ra

/-- R120: a malformed start frame. -/
def malformedStartFrame (ra : ReassemblyState) : RaResult := raiseAborted .malformed ra

/-- R121: a malformed continuation frame. -/
def malformedContFrame (ra : ReassemblyState) : RaResult := raiseAborted .malformed ra

/-! ## `RA_STEP` (R123) -/

/-- The `Start(L, c)` case of R123: the capacity check, then R115 or R114. -/
def raStart (totalLength : U16) (chunk : Bytes) (cfg : Config) (ra : ReassemblyState) : RaResult :=
  if capacityOf cfg < totalLength.toNat then startExceeds ra else startAccepted totalLength chunk cfg ra

/-- The `Continuation(q, c)` case of R123: the `Idle` check, the sequence check, then R118, R117 or R116. -/
def raCont (seq : Byte) (chunk : Bytes) (cfg : Config) (ra : ReassemblyState) : RaResult :=
  if ra.assembling = false then contUnexpected ra
  else if seq ≠ ra.nextSeq then contMismatch ra
  else contAccepted chunk cfg ra

/-- `RA_STEP(k)` (R123). -/
def raStep (k : FrameKind) (cfg : Config) (ra : ReassemblyState) : RaResult :=
  match k with
  | .unknown => unknownFrame ra
  | .malformed .start => malformedStartFrame ra
  | .malformed .continuation => malformedContFrame ra
  | .start totalLength chunk => raStart totalLength chunk cfg ra
  | .continuation seq chunk => raCont seq chunk cfg ra

/-- `RX_FRAME(f)` (R110): the identifier filter (R111), `DECODE`, `RA_STEP`. -/
def rxStep (f : Frame) (cfg : Config) (ra : ReassemblyState) : RaResult :=
  if addressed cfg f then raStep (decodeKind f.data) cfg ra else emit .filtered ra

/-- `RX_FRAME(f)` on the machine. -/
def rxFrame (f : Frame) (s : State) : Result := withFrame f.data.length (receive (rxStep f) s)

/-- The frame with data `d`, addressed to this node, given to the reassembler: `RA_STEP(DECODE(d))` (R66, R123; log 3). More than
`FRAME_MAX` bytes are no frame (R72; log 19). -/
def wireFrame (d : Bytes) (s : State) : Result := withFrame d.length (receive (raStep (decodeKind d)) s)

/-! ## Meanings -/

/-- `START`: a start frame given to the reassembler (R114, R115). The placeholder is not examined (R70). -/
def execStart (totalLength : U16) (placeholder : Byte) (chunk : Bytes) (s : State) : Result :=
  wireFrame (startData totalLength placeholder chunk) s

/-- `CONT`: a continuation frame given to the reassembler (R116, R117, R118). -/
def execCont (seq : Byte) (chunk : Bytes) (s : State) : Result := wireFrame (contData seq chunk) s

/-- `MALFORMED_START` given to the reassembler (R120). The bytes after the magic are not examined. -/
def execMalformedStart (tail : Bytes) (s : State) : Result := wireFrame (lit.startMagic :: tail) s

/-- `MALFORMED_CONT` given to the reassembler (R121). -/
def execMalformedCont (s : State) : Result := wireFrame [lit.contMagic] s

/-- `UNKNOWN` given to the reassembler (R119). Its bytes carry no protocol meaning (R68). -/
def execUnknown (data : Bytes) (s : State) : Result := wireFrame data s

/-- `RX_FRAME` (R110). -/
def execRxFrame (f : Frame) (s : State) : Result := rxFrame f s

end Sys2Proof.Machine
end

