-- ==== Sys2Proof/Machine/HostOps.lean ====
section
/-! DEFINITION. The meanings of the two pseudo-operations: `SEND_MSG`, a macro over the encoder (spec/30_encoding.md R80), and
`RECV_POLL`, a loop over `RX_FRAME` (R82). -/

namespace Sys2Proof.Machine

open Sys2Proof

/-- The loop of R80, from the message bytes not sent yet and the sequence number `q`: each continuation frame carries the next
`min(remaining, 6)` bytes, and `q` goes up modulo 256. `fuel` bounds the number of frames; the number of bytes left is enough. -/
def sendRest (cfg : Config) (dest : Dest) : Nat → Bytes → Byte → Except Fault (List Frame)
  | 0, _, _ => .ok []
  | _ + 1, [], _ => .ok []
  | fuel + 1, b :: bs, q =>
    match encodeCont cfg dest q ((b :: bs).take lit.contChunkMax) with
    | .error r => .error r
    | .ok f =>
      match sendRest cfg dest fuel ((b :: bs).drop lit.contChunkMax) (q + 1) with
      | .ok fs => .ok (f :: fs)
      | .error r => .error r

/-- The frames of `SEND_MSG(d, msg)` (R80): a start frame with the first `min(L, 4)` bytes, then the loop from sequence number 1. -/
def sendFrames (cfg : Config) (dest : Dest) (msg : Bytes) : Except Fault (List Frame) :=
  match encodeStart cfg dest (BitVec.ofNat 16 msg.length) (msg.take lit.startChunkMax) with
  | .error r => .error r
  | .ok f =>
    match sendRest cfg dest msg.length (msg.drop lit.startChunkMax) 1 with
    | .ok fs => .ok (f :: fs)
    | .error r => .error r

/-- `SEND_MSG` (R80), for any destination id: its two rejections first, each reported to the caller with no side effect (R148), then
the frames. -/
def execSendMsg (dest : Nat) (msg : Bytes) (s : State) : Result :=
  if ¬ legalDestination dest then .next (s.respond (.sendRejected .invalidTarget))
  else if lit.msgLenMax < msg.length then .next (s.respond (.sendRejected .messageTooLong))
  else
    match sendFrames s.cfg (BitVec.ofNat 3 dest) msg with
    | .ok fs => .next (s.respond (.frames fs))
    | .error r => .fault r

/-- The loop of R82 goes round: `RECV_POLL` is the next operation again. -/
def State.again (s : State) (i : Instr) : State := { s with requests := i :: s.requests }

/-- `RECV_POLL` (R82), one iteration of its loop: poll the link driver; a frame it holds is given to `RX_FRAME` once; then the
loop goes round (log 6). A poll that finds no frame reports nothing. -/
def execRecvPoll (s : State) : Result :=
  match s.linkRx with
  | [] => .next (State.again { s with response := none } .recvPoll)
  | f :: fs => rxFrame f (State.again { s with linkRx := fs } .recvPoll)

end Sys2Proof.Machine
end

