-- ==== Sys2Proof/Machine/System.lean ====
section
/-! DEFINITION. The meanings of `RESET` (spec/70_reset_and_hazards.md R170) and of the reserved selectors (spec/30_encoding.md R76). -/

namespace Sys2Proof.Machine

open Sys2Proof

/-- `RESET` (R170): ReassemblyState to its reset value, the configuration kept, no event. It may be issued at any time (D26). -/
def execReset (s : State) : Result :=
  .next { s with ra := ReassemblyState.reset, resetDone := true, response := none }

/-- `RESERVED_OP`: selectors 5, 6 and 7 are refused (R76). -/
def execReservedOp (_op : BitVec 3) (_s : State) : Result := .refused .reservedOperation

end Sys2Proof.Machine
end

