-- ==== Sys2Proof/Machine/Dispatch.lean ====
section
/-! DEFINITION. The meaning of an instruction: one arm per constructor. -/

namespace Sys2Proof.Machine

open Sys2Proof

def exec (i : Instr) (s : State) : Host.Outcome State Fault Refusal :=
  match i with
  | .start totalLength placeholder chunk => Sys2Proof.Machine.execStart totalLength placeholder chunk s
  | .cont seq chunk => Sys2Proof.Machine.execCont seq chunk s
  | .malformedStart tail => Sys2Proof.Machine.execMalformedStart tail s
  | .malformedCont => Sys2Proof.Machine.execMalformedCont s
  | .unknown data => Sys2Proof.Machine.execUnknown data s
  | .encStart dest totalLength chunk => Sys2Proof.Machine.execEncStart dest totalLength chunk s
  | .encCont dest seq chunk => Sys2Proof.Machine.execEncCont dest seq chunk s
  | .decodeFrame data => Sys2Proof.Machine.execDecodeFrame data s
  | .rxFrame f => Sys2Proof.Machine.execRxFrame f s
  | .reset => Sys2Proof.Machine.execReset s
  | .reservedOp op => Sys2Proof.Machine.execReservedOp op s
  | .sendMsg dest msg => Sys2Proof.Machine.execSendMsg dest msg s
  | .recvPoll => Sys2Proof.Machine.execRecvPoll s

end Sys2Proof.Machine
end

