-- ==== Sys2Proof/Machine/Fetch.lean ====
section
/-! DEFINITION. Taking the next operation the host issues. The block fetches no instructions (spec/20_memory.md R53): its operations
arrive from the host, and `requests` holds those still to come (log 1). -/

namespace Sys2Proof.Machine

open Sys2Proof

/-- What the host has for the block next. -/
inductive Fetched where
  /-- Nothing: the host issues no operation. -/
  | idle
  /-- The operation `i`, and the state with it taken from those to come. -/
  | issue (i : Instr) (s : State)
  /-- The boundary refuses. -/
  | refuse (r : Refusal)
  deriving DecidableEq, Repr

/-- Take the next operation. An illegal configuration is refused first (R33, R173). -/
def fetch (s : State) : Fetched :=
  if Config.legal s.cfg then
    match s.requests with
    | [] => .idle
    | i :: rest => .issue i { s with requests := rest }
  else .refuse .illegalConfiguration

/-- A step on what was taken: with no operation the state stays as it is (R160), otherwise the operation runs. -/
def runFetched (s : State) : Fetched → Result
  | .idle => .next s
  | .issue i t => exec i t
  | .refuse r => .refused r

/-- `s` with the instruction of an opcode-table word as the one operation to come; a word the decoder rejects is no operation,
and then none is to come (log 18). -/
def placeTableWord (s : State) (nbits w : Nat) : State :=
  match decodeTableWord nbits w with
  | some i => { s with requests := [i] }
  | none => { s with requests := [] }

end Sys2Proof.Machine
end

