-- ==== Sys2Proof/Machine/Link.lean ====
section
/-! DEFINITION. What becomes of the frames of `SEND_MSG` on their way to the link: the Reliable Frame Sender's policy and the abort of
a message on a link failure (spec/70_reset_and_hazards.md R176, R177, R181). It is host software outside the block (R5, R95): no
operation of the machine reads it, and no state is held for it (log 21). -/

namespace Sys2Proof.Machine

open Sys2Proof

/-- `LinkError` (R176). -/
inductive LinkError where
  | busy
  | initFailure
  | transmitFailure
  deriving DecidableEq, Repr

/-- Why a frame could not be sent (R148, R177). -/
inductive SendFailure where
  /-- The attempts are used up, every one answered `Busy`. -/
  | busyTimeout
  | initFailure
  | transmitFailure
  deriving DecidableEq, Repr

/-- `sendFrame` (R177) with at most `attempts` attempts, the next of them number `k`; `link` is what the driver's `transmit` answers
to each attempt, none for success. The failure, if any, and the number of the attempt after. -/
def sendFrame (link : Nat → Option LinkError) : Nat → Nat → Option SendFailure × Nat
  | 0, k => (some .busyTimeout, k)
  | attempts + 1, k =>
    match link k with
    | none => (none, k + 1)
    | some .busy => sendFrame link attempts (k + 1)
    | some .initFailure => (some .initFailure, k + 1)
    | some .transmitFailure => (some .transmitFailure, k + 1)

/-- Hand the frames of a message to the link in order, with `budget` attempts for each; the first failure aborts the message (R148,
R181). The frames that reached the link, and the failure, if any. -/
def transmitAll (link : Nat → Option LinkError) (budget : Nat) : List Frame → Nat → List Frame × Option SendFailure
  | [], _ => ([], none)
  | f :: fs, k =>
    match sendFrame link budget k with
    | (none, k') => (f :: (transmitAll link budget fs k').1, (transmitAll link budget fs k').2)
    | (some e, _) => ([], some e)

end Sys2Proof.Machine
end

