-- ==== Sys2Proof/Machine/Flags.lean ====
section
/-! DEFINITION. Status: the block has no condition code; its one status bit is `assembling` (spec/10_state.md R29). Here stand the
read-only status view (R30), the FSM state's names (R26), and the numeric codes of outcomes (R31, R100, R140). -/

namespace Sys2Proof.Machine

open Sys2Proof

/-- `ra_status` (R30). -/
structure StatusView where
  assembling : Bool
  expectedLength : U16
  receivedLength : U16
  nextSeq : Byte
  deriving DecidableEq, Repr

/-- The status view of a ReassemblyState (R30): the four scalars; the buffer is not in it. -/
def ReassemblyState.status (ra : ReassemblyState) : StatusView :=
  ⟨ra.assembling, ra.expectedLength, ra.receivedLength, ra.nextSeq⟩

/-- The status view the host reads between steps (R30). -/
def State.raStatus (s : State) : StatusView := s.ra.status

/-- The status of `Idle` with zero scalars, what every return to `Idle` leaves (R112). -/
def StatusView.idle : StatusView := ⟨false, 0, 0, 0⟩

/-- The code of an event (R31). -/
def Event.code : Event → Nat
  | .stillAssembling => 0
  | .complete _ => 1
  | .aborted _ => 2
  | .ignored => 3
  | .filtered => 4

/-- The code of an error (R140). -/
def ReassemblyError.code : ReassemblyError → Nat
  | .exceedsCapacity => 1
  | .sequenceMismatch => 2
  | .unexpectedContinuation => 3
  | .malformed => 4

/-- The error code of an event: 0, "no error", where it carries none (R140). -/
def Event.errorCode : Event → Nat
  | .aborted e => e.code
  | .stillAssembling => 0
  | .complete _ => 0
  | .ignored => 0
  | .filtered => 0

/-- The tag code of a frame kind (R100). -/
def kindCode : FrameKind → Nat
  | .start _ _ => 0
  | .continuation _ _ => 1
  | .unknown => 2
  | .malformed _ => 3

end Sys2Proof.Machine
end

