-- ==== Sys2Proof/Safety.lean ====
section
/-! DEFINITION. What the claims speak of: the invariants of ReassemblyState (spec/10_state.md R27, R28), the launch premise (R171), runs
of received frames (spec/20_memory.md R50), and when two states cannot be told apart. -/

namespace Sys2Proof.Machine

open Sys2Proof

/-- The invariants of the scalars: R27 items 1 and 2, R28 items 1 and 2. (R28 item 5 follows from the first two.) -/
structure ReassemblyState.Inv (cfg : Config) (ra : ReassemblyState) : Prop where
  /-- R27 item 1. -/
  fits : ra.expectedLength.toNat ≤ cfg.capacity.toNat
  /-- R27 item 2. -/
  bounded : ra.receivedLength.toNat ≤ ra.expectedLength.toNat
  /-- R28 item 1. -/
  idle_zero : ra.assembling = false → ra.expectedLength = 0 ∧ ra.receivedLength = 0 ∧ ra.nextSeq = 0
  /-- R28 item 2. -/
  unfinished : ra.assembling = true → ra.receivedLength.toNat < ra.expectedLength.toNat

/-- The buffer is in canonical form, and holds no byte at or above `CAPACITY` (R25, R41). -/
structure Memory.Ok (cfg : Config) (m : Memory) : Prop where
  canonical : m.wf
  inside : m.within cfg.capacity.toNat

/-- A state in which `RX_FRAME` is defined: a `RESET` has been issued (R171) and the invariants hold (R110). -/
structure State.Ready (s : State) : Prop where
  launched : s.resetDone = true
  inv : s.ra.Inv s.cfg
  buffer : s.ra.buffer.Ok s.cfg

/-- The invariant of the machine: a legal configuration (R33), a well-formed buffer, and, once a `RESET` has been issued, the
invariants of the scalars. Before it the scalars may hold any value (R171). -/
structure State.Inv (s : State) : Prop where
  legal : s.cfg.legal
  buffer : s.ra.buffer.Ok s.cfg
  live : s.resetDone = true → s.ra.Inv s.cfg

/-- The data sequence an encoder of configuration `cfg` emits for `d`: `d` itself, or `d` filled up to `FRAME_MAX` bytes, which are 8 (R92). -/
def paddedTo8 (cfg : Config) (d : Bytes) : Bytes :=
  if cfg.padEnable = true then d ++ List.replicate (lit.frameMax - d.length) cfg.padByte else d

/-- The pad bytes after a chunk of `n` bytes in a frame that holds `most` (R105). -/
def padTail (cfg : Config) (most n : Nat) : Bytes :=
  if cfg.padEnable = true then List.replicate (most - n) cfg.padByte else []

/-- The frame is for this node: its identifier is `ID_BASE + SELF_ID` (R9, R111). -/
def isFor (cfg : Config) (f : Frame) : Prop := f.id.toNat = lit.idBase + cfg.selfId.toNat

/-- The data bytes of a wire frame's instruction (R61, R62, R68, R69). -/
def wireData : Instr → Option Bytes
  | .start totalLength placeholder chunk => some (startData totalLength placeholder chunk)
  | .cont seq chunk => some (contData seq chunk)
  | .malformedStart tail => some (lit.startMagic :: tail)
  | .malformedCont => some [lit.contMagic]
  | .unknown data => some data
  | .encStart _ _ _ => none
  | .encCont _ _ _ => none
  | .decodeFrame _ => none
  | .rxFrame _ => none
  | .reset => none
  | .reservedOp _ => none
  | .sendMsg _ _ => none
  | .recvPoll => none

/-- The frame, by its data, that an operation gives to `RA_STEP`, if it gives one: a wire frame is such a frame, `RX_FRAME` gives
its frame when the identifier is this node's (R111), and `RECV_POLL` the same with the oldest frame the link driver holds (R82). -/
def givenTo (s : State) : Instr → Option Bytes
  | .start totalLength placeholder chunk => some (startData totalLength placeholder chunk)
  | .cont seq chunk => some (contData seq chunk)
  | .malformedStart tail => some (lit.startMagic :: tail)
  | .malformedCont => some [lit.contMagic]
  | .unknown data => some data
  | .encStart _ _ _ => none
  | .encCont _ _ _ => none
  | .decodeFrame _ => none
  | .rxFrame f => if addressed s.cfg f then some f.data else none
  | .reset => none
  | .reservedOp _ => none
  | .sendMsg _ _ => none
  | .recvPoll =>
    match s.linkRx with
    | [] => none
    | f :: _ => if addressed s.cfg f then some f.data else none

/-- Give the frames to `RX_FRAME` in order, with nothing between them: the events, in order, and the state after the last; none if a
step stops. -/
def rxAll (s : State) : List Frame → Option (List Event × State)
  | [] => some ([], s)
  | f :: fs =>
    match exec (.rxFrame f) s with
    | .next t =>
      match t.response, rxAll t fs with
      | some (.event e), some (es, u) => some (e :: es, u)
      | _, _ => none
    | .fault _ => none
    | .refused _ => none

/-- Two ReassemblyStates that differ in buffer bytes at or above `receivedLength` only, the bytes that have no meaning (R25). -/
structure ReassemblyState.Similar (a b : ReassemblyState) : Prop where
  status : a.status = b.status
  bytes : ∀ i < a.receivedLength.toNat, a.buffer.read i = b.buffer.read i

/-- Two states that differ in meaningless buffer bytes only. -/
structure State.Similar (s t : State) : Prop where
  cfg : s.cfg = t.cfg
  ra : s.ra.Similar t.ra
  resetDone : s.resetDone = t.resetDone
  requests : s.requests = t.requests
  linkRx : s.linkRx = t.linkRx
  response : s.response = t.response

end Sys2Proof.Machine
end

