-- ==== Sys2Proof/Certificates/Slice0/Obligations.lean ====
section
/-! DEFINITION. The statements about the machine, from the numbered rules of spec/. Each docstring names the rules. -/

open Sys2Proof Sys2Proof.Machine

/-! ## Reset and the invariant -/

/-- R170: `RESET`, from any state, zeroes the scalars and every byte of the buffer, and gives no event; the parameters stay.
(`resetDone` and the cleared `response` are the model's own fields, log 5 and log 10.) -/
def Obligations.ResetFromAnyStateGivesAllZeroIdle : Prop :=
  ∀ s : State, ∃ m : Memory,
    exec .reset s = .next { s with
      ra := { assembling := false, expectedLength := 0, receivedLength := 0, nextSeq := 0, buffer := m },
      resetDone := true, response := none } ∧
    (∀ a, m.read a = 0) ∧ m.Ok s.cfg

/-- R37: the values of the reset state, by the status view of R30 and by reading the buffer. -/
def Obligations.ResetStateHasTheSpecsValues : Prop :=
  State.reset.raStatus = ⟨false, 0, 0, 0⟩ ∧ State.reset.ra.buffer = [] ∧ ∀ a, State.reset.ra.buffer.read a = 0

/-- The reset state meets the invariant that every step keeps. -/
def Obligations.ResetStateMeetsTheInvariant : Prop := State.reset.Inv ∧ State.reset.Ready

/-- R27, R28: every step of the machine keeps the invariant: a legal configuration, a canonical buffer inside `CAPACITY`, and after
a `RESET` the invariants of the scalars. -/
def Obligations.EveryStepKeepsTheInvariant : Prop :=
  ∀ s t : State, s.Inv → step s = .next t → t.Inv

/-- R33: no step changes the configuration fields. -/
def Obligations.NoStepChangesTheConfiguration : Prop :=
  ∀ s t : State, step s = .next t → t.cfg = s.cfg ∧ t.cfg.legal

/-! ## Encodings -/

/-- The decoder of requests reads back every well-formed instruction from its encoding, with every operand, whatever follows. -/
def Obligations.DecodingAnEncodingGivesTheInstruction : Prop :=
  ∀ (i : Instr) (rest : Bytes), i.wf = true → decode (encode i ++ rest) = .ok (i, rest)

/-- The decoder of requests accepts encodings of well-formed instructions only, and drops no bit of them. -/
def Obligations.DecodedBytesAreTheEncoding : Prop :=
  ∀ (bs rest : Bytes) (i : Instr), decode bs = .ok (i, rest) → i.wf = true ∧ encode i ++ rest = bs

/-- R66: the map of frame classes, one clause per row, on the wire frame's instruction, with `totalLength` by R63; and the request
that carries a wire frame decodes to it. -/
def Obligations.FrameMapSelectsEveryWireClass : Prop :=
  wireInstr [] = .unknown [] ∧
  (∀ t : Bytes, t.length ≤ 2 → wireInstr (0xAA#8 :: t) = .malformedStart t) ∧
  (∀ (lo hi p : Byte) (c : Bytes), c.length ≤ 4 →
    wireInstr (0xAA#8 :: lo :: hi :: p :: c) = .start (BitVec.ofNat 16 (lo.toNat + 256 * hi.toNat)) p c) ∧
  wireInstr [0xCC#8] = .malformedCont ∧
  (∀ (q : Byte) (c : Bytes), c.length ≤ 6 → wireInstr (0xCC#8 :: q :: c) = .cont q c) ∧
  (∀ (b : Byte) (t : Bytes), t.length ≤ 7 → b ≠ 0xAA#8 → b ≠ 0xCC#8 → wireInstr (b :: t) = .unknown (b :: t)) ∧
  ∀ d rest : Bytes, d.length ≤ 8 →
    (wireInstr d).wf = true ∧ decode (0x08#8 :: BitVec.ofNat 8 d.length :: (d ++ rest)) = .ok (wireInstr d, rest)

/-- A few words decode to the instructions they stand for: frames of the spec's worked examples, written out from R61, R62 and R69,
and selector codes of R76. R76 gives the codes no operand bits: that the operand bytes such a word lacks are zero, so that code 2
alone reads as `DECODE` of the empty frame and code 3 as `RX_FRAME` of the empty frame with identifier 0, is the model's choice
(log 18). -/
def Obligations.WrittenOutWordsDecode : Prop :=
  decodeTableWord 64 0xAA00080003_0A1118 = some (.start 2048 0 [0x03, 0x0A, 0x11, 0x18]) ∧
  decodeTableWord 64 0xCC016F2C2043414E = some (.cont 1 [0x6F, 0x2C, 0x20, 0x43, 0x41, 0x4E]) ∧
  wireInstr [0xAA, 0x0B, 0x00] = .malformedStart [0x0B, 0x00] ∧
  wireInstr [0xCC] = .malformedCont ∧
  wireInstr [0x55, 0x01] = .unknown [0x55, 0x01] ∧
  decodeTableWord 8 2 = some (.decodeFrame []) ∧
  decodeTableWord 8 3 = some (.rxFrame ⟨0, []⟩) ∧
  decodeTableWord 8 4 = some .reset ∧
  decodeTableWord 8 5 = some (.reservedOp 5)

/-! ## The step -/

/-- R20, R36, D29: a step runs the next operation the host issues, with that operation taken; with none the state stays (log 1);
and with the instruction a word decodes to placed by `withFetchWord` (log 18), it runs that instruction alone. -/
def Obligations.StepRunsTheDecodedRequest : Prop :=
  ∀ s : State, s.cfg.legal →
    (s.requests = [] → step s = .next s) ∧
    (∀ (i : Instr) (rest : List Instr), s.requests = i :: rest → step s = exec i { s with requests := rest }) ∧
    ∀ (nbits w : Nat) (i : Instr), decodeTableWord nbits w = some i →
      step (s.withFetchWord nbits w) = exec i { s with requests := [] }

/-- R20, R50, R82: a step takes the operation it runs from the front of those to come, or, when that is `RECV_POLL`, leaves it there;
and only `RECV_POLL` takes a received frame, the oldest. No step adds, drops or reorders an operation or a frame otherwise. -/
def Obligations.StepsTakeOperationsAndFramesInOrder : Prop :=
  ∀ s t : State, step s = .next t →
    (t.requests = s.requests.tail ∨ s.requests.head? = some .recvPoll ∧ t.requests = s.requests) ∧
    (t.linkRx = s.linkRx ∨ s.requests.head? = some .recvPoll ∧ t.linkRx = s.linkRx.tail)

/-- R72, R33, R173: the refusals at the boundary: a frame length 9 to 15 denotes no frame, in the bytes of a `DECODE`, an `RX_FRAME`
or a wire-frame request; an illegal configuration is refused whatever is asked; and no operation takes a frame of more than 8 bytes,
be it `DECODE`, `RX_FRAME`, `RECV_POLL` or any of the five wire frames (log 19), as the step's operation neither. -/
def Obligations.BoundaryRefusesReservedLengthsAndConfigurations : Prop :=
  (∀ (b n : Byte) (rest : Bytes), b = 0x02#8 ∨ b = 0x08#8 → 9 ≤ n.toNat → n.toNat ≤ 15 →
    decode (b :: n :: rest) = .error .reservedFrameLength) ∧
  (∀ (lo hi n : Byte) (rest : Bytes), hi.toNat < 8 → 9 ≤ n.toNat → n.toNat ≤ 15 →
    decode (0x03#8 :: lo :: hi :: n :: rest) = .error .reservedFrameLength) ∧
  (∀ s : State, s.cfg.selfId.toNat = 0 ∨ 5 < s.cfg.selfId.toNat ∨ s.cfg.capacity = 0 →
    step s = .refused .illegalConfiguration) ∧
  (∀ (s : State) (d : Bytes), 8 < d.length → exec (.decodeFrame d) s = .refused .reservedFrameLength) ∧
  (∀ (s : State) (f : Frame), 8 < f.data.length → exec (.rxFrame f) s = .refused .reservedFrameLength) ∧
  (∀ (s : State) (f : Frame) (fs : List Frame), s.linkRx = f :: fs → 8 < f.data.length →
    exec .recvPoll s = .refused .reservedFrameLength) ∧
  (∀ (s : State) (L : U16) (p : Byte) (c : Bytes), 4 < c.length →
    exec (.start L p c) s = .refused .reservedFrameLength) ∧
  (∀ (s : State) (q : Byte) (c : Bytes), 6 < c.length → exec (.cont q c) s = .refused .reservedFrameLength) ∧
  (∀ (s : State) (tail : Bytes), 7 < tail.length → exec (.malformedStart tail) s = .refused .reservedFrameLength) ∧
  (∀ (s : State) (d : Bytes), 8 < d.length → exec (.unknown d) s = .refused .reservedFrameLength) ∧
  ∀ (s : State) (i : Instr) (d : Bytes) (rest : List Instr), s.cfg.legal → 8 < d.length → s.requests = i :: rest →
    i = .decodeFrame d ∨ (∃ id, i = .rxFrame ⟨id, d⟩) ∨ wireData i = some d →
    step s = .refused .reservedFrameLength

/-- R76: the selector codes 5, 6 and 7 are reserved and refused: each is read as the reserved operation of its code, and that
operation is refused, in a step too. -/
def Obligations.ReservedSelectorsAreRefused : Prop :=
  (∀ (b : Byte) (rest : Bytes), 5 ≤ b.toNat → b.toNat ≤ 7 →
    ∃ op : BitVec 3, op.toNat = b.toNat ∧ decode (b :: rest) = .ok (.reservedOp op, rest)) ∧
  (∀ (s : State) (op : BitVec 3), exec (.reservedOp op) s = .refused .reservedOperation) ∧
  ∀ (s : State) (op : BitVec 3) (rest : List Instr), s.cfg.legal → s.requests = .reservedOp op :: rest →
    step s = .refused .reservedOperation

/-! ## The codec -/

/-- R90, R92, R93: `ENC_START` within its contract answers with the start frame and changes nothing else; outside it, it faults,
the chunk's length checked first. -/
def Obligations.EncStartBuildsTheStartFrame : Prop :=
  ∀ (s : State) (dest : Dest) (totalLength : U16) (chunk : Bytes),
    (chunk.length ≤ 4 → 1 ≤ dest.toNat → dest.toNat ≤ 5 →
      exec (.encStart dest totalLength chunk) s = .next { s with
        response := some (.frame ⟨BitVec.ofNat 11 (0x200 + dest.toNat),
          paddedTo8 s.cfg
            (0xAA#8 :: totalLength.extractLsb' 0 8 :: totalLength.extractLsb' 8 8 :: 0x00#8 :: chunk)⟩) }) ∧
    (4 < chunk.length → exec (.encStart dest totalLength chunk) s = .fault .encChunkTooLong) ∧
    (chunk.length ≤ 4 → dest.toNat < 1 ∨ 5 < dest.toNat →
      exec (.encStart dest totalLength chunk) s = .fault .encBadDest)

/-- R91, R92, R93: `ENC_CONT`, as for `ENC_START`; every sequence number 0 to 255 is encoded as given. -/
def Obligations.EncContBuildsTheContinuationFrame : Prop :=
  ∀ (s : State) (dest : Dest) (seq : Byte) (chunk : Bytes),
    (chunk.length ≤ 6 → 1 ≤ dest.toNat → dest.toNat ≤ 5 →
      exec (.encCont dest seq chunk) s = .next { s with
        response := some (.frame ⟨BitVec.ofNat 11 (0x200 + dest.toNat), paddedTo8 s.cfg (0xCC#8 :: seq :: chunk)⟩) }) ∧
    (6 < chunk.length → exec (.encCont dest seq chunk) s = .fault .encChunkTooLong) ∧
    (chunk.length ≤ 6 → dest.toNat < 1 ∨ 5 < dest.toNat → exec (.encCont dest seq chunk) s = .fault .encBadDest)

/-- R101, R102: `DECODE` answers for every frame of 0 to 8 bytes, with the kind its length and leading byte select and the fields
of that kind, and changes nothing else. -/
def Obligations.DecodeClassifiesEveryFrame : Prop :=
  ∀ (s : State) (d : Bytes), d.length ≤ 8 → ∃ k : FrameKind,
    exec (.decodeFrame d) s = .next { s with response := some (.kind k) } ∧
    (d = [] → k = .unknown) ∧
    (∀ t, d = 0xAA#8 :: t → t.length < 3 → k = .malformed .start) ∧
    (∀ lo hi p c, d = 0xAA#8 :: lo :: hi :: p :: c → ∃ L : U16, k = .start L c ∧ L.toNat = lo.toNat + 256 * hi.toNat) ∧
    (d = [0xCC#8] → k = .malformed .continuation) ∧
    (∀ q c, d = 0xCC#8 :: q :: c → k = .continuation q c) ∧
    (∀ b t, d = b :: t → b ≠ 0xAA#8 → b ≠ 0xCC#8 → k = .unknown)

/-- R105: what the encoder builds, `DECODE` reads back, with the pad bytes as the tail of the chunk; and what `DECODE` reads as a
`Start` or a `Continuation`, the unpadded encoder builds again, but for byte 3 of a start frame. -/
def Obligations.CodecRoundTrip : Prop :=
  ∀ (s : State) (dest : Dest), 1 ≤ dest.toNat → dest.toNat ≤ 5 →
    (∀ (L : U16) (c : Bytes), c.length ≤ 4 → ∃ f : Frame,
      exec (.encStart dest L c) s = .next { s with response := some (.frame f) } ∧
      exec (.decodeFrame f.data) s =
        .next { s with response := some (.kind (.start L (c ++ padTail s.cfg 4 c.length))) }) ∧
    (∀ (q : Byte) (c : Bytes), c.length ≤ 6 → ∃ f : Frame,
      exec (.encCont dest q c) s = .next { s with response := some (.frame f) } ∧
      exec (.decodeFrame f.data) s =
        .next { s with response := some (.kind (.continuation q (c ++ padTail s.cfg 6 c.length))) }) ∧
    (s.cfg.padEnable = false → ∀ d : Bytes, d.length ≤ 8 →
      (∀ L c, exec (.decodeFrame d) s = .next { s with response := some (.kind (.start L c)) } → ∃ f : Frame,
        exec (.encStart dest L c) s = .next { s with response := some (.frame f) } ∧
        f.data.length = d.length ∧ ∀ i, i ≠ 3 → f.data[i]? = d[i]?) ∧
      (∀ q c, exec (.decodeFrame d) s = .next { s with response := some (.kind (.continuation q c)) } → ∃ f : Frame,
        exec (.encCont dest q c) s = .next { s with response := some (.frame f) } ∧ f.data = d))

/-- R70: byte 3 of a start frame makes no difference, to `DECODE` and to the reassembler. -/
def Obligations.PlaceholderIsIgnored : Prop :=
  (∀ (s : State) (L : U16) (p p' : Byte) (c : Bytes), exec (.start L p c) s = exec (.start L p' c) s) ∧
  ∀ (s : State) (lo hi p p' : Byte) (c : Bytes),
    exec (.decodeFrame (0xAA#8 :: lo :: hi :: p :: c)) s = exec (.decodeFrame (0xAA#8 :: lo :: hi :: p' :: c)) s

/-- R48, R20: the encoder operations and `DECODE` change the outcome only, and repeated with the same operands give the same outcome
and the same state. -/
def Obligations.EncoderAndDecoderAreIdempotent : Prop :=
  ∀ (s t : State) (i : Instr),
    (∃ d L c, i = .encStart d L c) ∨ (∃ d q c, i = .encCont d q c) ∨ (∃ d, i = .decodeFrame d) →
    exec i s = .next t → t = { s with response := t.response } ∧ exec i t = .next t

/-! ## The reassembler -/

/-- R111: a frame with another identifier changes nothing and its event is `Filtered`. -/
def Obligations.FilteredFramesChangeNothing : Prop :=
  ∀ (s : State) (f : Frame), s.resetDone = true → f.data.length ≤ 8 → f.id.toNat ≠ 0x200 + s.cfg.selfId.toNat →
    exec (.rxFrame f) s = .next { s with response := some (.event .filtered) }

/-- R110: `RX_FRAME` is total: from every state that satisfies the invariants, on every frame, it answers one event, changes
ReassemblyState alone, and the invariants hold again. -/
def Obligations.RxFrameIsTotal : Prop :=
  ∀ (s : State) (f : Frame), s.Ready → f.data.length ≤ 8 →
    ∃ (ra : ReassemblyState) (e : Event),
      exec (.rxFrame f) s = .next { s with ra := ra, response := some (.event e) } ∧ ra.Inv s.cfg ∧ ra.buffer.Ok s.cfg

/-- R110, R66: `RX_FRAME` on a frame for this node is the wire instruction its data decodes to, and any wire instruction is `RX_FRAME`
on the frame of its bytes, in every state and at every length. -/
def Obligations.RxFrameRunsTheWireInstruction : Prop :=
  (∀ (s : State) (f : Frame), f.id.toNat = 0x200 + s.cfg.selfId.toNat → exec (.rxFrame f) s = exec (wireInstr f.data) s) ∧
  ∀ (s : State) (f : Frame) (i : Instr), f.id.toNat = 0x200 + s.cfg.selfId.toNat → wireData i = some f.data →
    exec i s = exec (.rxFrame f) s

/-- R114: a start frame whose length fits is accepted, in either state: `min(|c|, L)` bytes stored from index 0, the scalars set, and
the message complete at once when its chunk holds it all. -/
def Obligations.StartFrameAccepted : Prop :=
  ∀ (s : State) (L : U16) (p : Byte) (c : Bytes), s.Ready → c.length ≤ 4 → L.toNat ≤ s.cfg.capacity.toNat →
    (L.toNat ≤ c.length → ∃ m : Memory,
      exec (.start L p c) s = .next { s with
        ra := { assembling := false, expectedLength := 0, receivedLength := 0, nextSeq := 0, buffer := m },
        response := some (.event (.complete (c.take L.toNat))) } ∧
      ∀ a, m.read a = if a < L.toNat then c.getD a 0 else s.ra.buffer.read a) ∧
    (c.length < L.toNat → ∃ m : Memory,
      exec (.start L p c) s = .next { s with
        ra := { assembling := true, expectedLength := L, receivedLength := BitVec.ofNat 16 c.length, nextSeq := 1,
                buffer := m },
        response := some (.event .stillAssembling) } ∧
      ∀ a, m.read a = if a < c.length then c.getD a 0 else s.ra.buffer.read a)

/-- R115: a start frame that exceeds capacity is rejected in either state: the scalars to zero, nothing stored. -/
def Obligations.StartFrameExceedsCapacity : Prop :=
  ∀ (s : State) (L : U16) (p : Byte) (c : Bytes), s.resetDone = true → c.length ≤ 4 → s.cfg.capacity.toNat < L.toNat →
    exec (.start L p c) s = .next { s with
      ra := { assembling := false, expectedLength := 0, receivedLength := 0, nextSeq := 0, buffer := s.ra.buffer },
      response := some (.event (.aborted .exceedsCapacity)) }

/-- R116: a continuation frame with the expected number is accepted: `nextSeq` goes up modulo 256, as many chunk bytes as the message
still needs are stored from `receivedLength` on, and the message is delivered when it is whole. -/
def Obligations.ContinuationFrameAccepted : Prop :=
  ∀ (s : State) (q : Byte) (c : Bytes), s.Ready → c.length ≤ 6 → s.ra.assembling = true → q = s.ra.nextSeq →
    (s.ra.expectedLength.toNat ≤ s.ra.receivedLength.toNat + c.length → ∃ m : Memory,
      exec (.cont q c) s = .next { s with
        ra := { assembling := false, expectedLength := 0, receivedLength := 0, nextSeq := 0, buffer := m },
        response := some (.event (.complete ((List.range s.ra.expectedLength.toNat).map m.read))) } ∧
      ∀ a, m.read a =
        if s.ra.receivedLength.toNat ≤ a ∧ a < s.ra.expectedLength.toNat then c.getD (a - s.ra.receivedLength.toNat) 0
        else s.ra.buffer.read a) ∧
    (s.ra.receivedLength.toNat + c.length < s.ra.expectedLength.toNat → ∃ m : Memory,
      exec (.cont q c) s = .next { s with
        ra := { assembling := true, expectedLength := s.ra.expectedLength,
                receivedLength := BitVec.ofNat 16 (s.ra.receivedLength.toNat + c.length),
                nextSeq := BitVec.ofNat 8 ((s.ra.nextSeq.toNat + 1) % 256), buffer := m },
        response := some (.event .stillAssembling) } ∧
      ∀ a, m.read a =
        if s.ra.receivedLength.toNat ≤ a ∧ a < s.ra.receivedLength.toNat + c.length then
          c.getD (a - s.ra.receivedLength.toNat) 0
        else s.ra.buffer.read a)

/-- R117: a continuation frame with another number while `Assembling` aborts: the scalars to zero, nothing stored. -/
def Obligations.ContinuationFrameOutOfSequence : Prop :=
  ∀ (s : State) (q : Byte) (c : Bytes), s.resetDone = true → c.length ≤ 6 → s.ra.assembling = true →
    q ≠ s.ra.nextSeq →
    exec (.cont q c) s = .next { s with
      ra := { assembling := false, expectedLength := 0, receivedLength := 0, nextSeq := 0, buffer := s.ra.buffer },
      response := some (.event (.aborted .sequenceMismatch)) }

/-- R118: a continuation frame while `Idle` aborts, whatever its number, and changes nothing: the scalars are zero already. -/
def Obligations.ContinuationFrameWhileIdle : Prop :=
  ∀ (s : State) (q : Byte) (c : Bytes), s.Ready → c.length ≤ 6 → s.ra.assembling = false →
    exec (.cont q c) s = .next { s with response := some (.event (.aborted .unexpectedContinuation)) }

/-- R119: an unknown frame is ignored in either state: no field of the state is written. -/
def Obligations.UnknownFrameIsIgnored : Prop :=
  ∀ (s : State) (d : Bytes), s.resetDone = true → d.length ≤ 8 →
    d = [] ∨ (∃ b r, d = b :: r ∧ b ≠ 0xAA#8 ∧ b ≠ 0xCC#8) →
    exec (.unknown d) s = .next { s with response := some (.event .ignored) }

/-- R120, R121: a malformed frame of either apparent kind aborts in either state: the scalars to zero, nothing stored. -/
def Obligations.MalformedFramesAbort : Prop :=
  ∀ (s : State) (i : Instr), s.resetDone = true →
    (∃ tail, tail.length ≤ 2 ∧ i = .malformedStart tail) ∨ i = .malformedCont →
    exec i s = .next { s with
      ra := { assembling := false, expectedLength := 0, receivedLength := 0, nextSeq := 0, buffer := s.ra.buffer },
      response := some (.event (.aborted .malformed)) }

/-- R150: the event of an `RX_FRAME` step is decided by the first condition that holds, in the order of R150. -/
def Obligations.EventFollowsThePriorityOrder : Prop :=
  ∀ (s : State) (f : Frame), s.Ready → f.data.length ≤ 8 → ∃ (t : State) (e : Event),
    exec (.rxFrame f) s = .next t ∧ t.response = some (.event e) ∧
    (¬ isFor s.cfg f → e = .filtered) ∧
    (isFor s.cfg f →
      (f.data = [] ∨ (∃ b r, f.data = b :: r ∧ b ≠ 0xAA#8 ∧ b ≠ 0xCC#8) → e = .ignored) ∧
      ((∃ r, f.data = 0xAA#8 :: r ∧ r.length < 3) ∨ f.data = [0xCC#8] → e = .aborted .malformed) ∧
      (∀ lo hi p c, f.data = 0xAA#8 :: lo :: hi :: p :: c →
        (s.cfg.capacity.toNat < lo.toNat + 256 * hi.toNat → e = .aborted .exceedsCapacity) ∧
        (lo.toNat + 256 * hi.toNat ≤ s.cfg.capacity.toNat → e = .stillAssembling ∨ ∃ m, e = .complete m)) ∧
      (∀ q c, f.data = 0xCC#8 :: q :: c →
        (s.ra.assembling = false → e = .aborted .unexpectedContinuation) ∧
        (s.ra.assembling = true → q ≠ s.ra.nextSeq → e = .aborted .sequenceMismatch) ∧
        (s.ra.assembling = true → q = s.ra.nextSeq → e = .stillAssembling ∨ ∃ m, e = .complete m)))

/-- R151: a step whose event is `Aborted(e)` has set the four scalars to zero and left the buffer as it was, and changed nothing
else of the block: the configuration and the launch bit stay. -/
def Obligations.AbortZeroesTheScalarsAndKeepsTheBuffer : Prop :=
  ∀ (s t : State) (i : Instr) (e : ReassemblyError),
    exec i s = .next t → t.response = some (.event (.aborted e)) →
    t.ra = { assembling := false, expectedLength := 0, receivedLength := 0, nextSeq := 0, buffer := s.ra.buffer } ∧
    t.cfg = s.cfg ∧ t.resetDone = s.resetDone

/-- R31, R26: what the event of a step says of the state after it. -/
def Obligations.EventTellsTheStateAfter : Prop :=
  ∀ (s t : State) (i : Instr) (e : Event), s.Ready → exec i s = .next t → t.response = some (.event e) →
    (e = .stillAssembling → t.ra.assembling = true) ∧
    (∀ m, e = .complete m → t.raStatus = ⟨false, 0, 0, 0⟩ ∧ m.length ≤ s.cfg.capacity.toNat) ∧
    (∀ r, e = .aborted r → t.raStatus = ⟨false, 0, 0, 0⟩) ∧
    (e = .ignored ∨ e = .filtered → t.ra = s.ra)

/-- R20, R110, R131: ReassemblyState is changed by `RESET` and by a frame given to the reassembler only, and not by an unknown
frame. -/
def Obligations.OnlyResetAndReceivedFramesChangeReassemblyState : Prop :=
  ∀ (s t : State) (i : Instr), exec i s = .next t → t.ra ≠ s.ra →
    i = .reset ∨ ∃ d, givenTo s i = some d ∧ decodeKind d ≠ .unknown

/-- R41, R145, R146: within the invariants only the encoder operations fault, and never for a buffer index. -/
def Obligations.OnlyTheEncoderFaults : Prop :=
  ∀ (s : State) (i : Instr) (r : Fault), s.Ready → exec i s = .fault r →
    ((∃ d L c, i = .encStart d L c) ∨ ∃ d q c, i = .encCont d q c) ∧ (r = .encChunkTooLong ∨ r = .encBadDest)

/-- R49, R113: a received frame writes inside the buffer only, a start frame below its declared length, a continuation frame
from `receivedLength` up to `expectedLength`. -/
def Obligations.WritesStayBelowTheExpectedLength : Prop :=
  ∀ (s t : State) (f : Frame) (a : Nat), s.Ready → exec (.rxFrame f) s = .next t →
    t.ra.buffer.read a ≠ s.ra.buffer.read a →
    a < s.cfg.capacity.toNat ∧
    (∀ L c, decodeKind f.data = .start L c → a < L.toNat) ∧
    (∀ q c, decodeKind f.data = .continuation q c →
      s.ra.receivedLength.toNat ≤ a ∧ a < s.ra.expectedLength.toNat)

/-- R171, D26: before the first `RESET` a frame is refused, by `RX_FRAME`, by the wire frames and by `RECV_POLL`; the encoder
operations, `DECODE` and `SEND_MSG` answer as they do in any state with the same configuration. -/
def Obligations.BeforeResetOnlyReceivingIsRefused : Prop :=
  (∀ (s : State) (f : Frame), s.resetDone = false → f.data.length ≤ 8 →
    exec (.rxFrame f) s = .refused .beforeReset ∧ exec (wireInstr f.data) s = .refused .beforeReset) ∧
  (∀ (s : State) (f : Frame) (fs : List Frame), s.resetDone = false → s.linkRx = f :: fs → f.data.length ≤ 8 →
    exec .recvPoll s = .refused .beforeReset) ∧
  ∀ (s t u : State) (i : Instr),
    (∃ d L c, i = .encStart d L c) ∨ (∃ d q c, i = .encCont d q c) ∨ (∃ d, i = .decodeFrame d) ∨
      (∃ d m, i = .sendMsg d m) →
    s.cfg = u.cfg → exec i s = .next t → exec i u = .next { u with response := t.response }

/-- R48: a continuation frame accepted without completing the message and then given again raises `SequenceMismatch`. -/
def Obligations.RepeatedContinuationIsOutOfSequence : Prop :=
  ∀ (s t : State) (q : Byte) (c : Bytes), s.Ready → exec (.cont q c) s = .next t →
    t.response = some (.event .stillAssembling) →
    ∃ u, exec (.cont q c) t = .next u ∧ u.response = some (.event (.aborted .sequenceMismatch)) ∧
      u.raStatus = ⟨false, 0, 0, 0⟩

/-- R28 item 4, R24, R71: from an accepted start frame on, while only accepted continuation frames, ignored frames and filtered frames
come, `nextSeq` is 1 plus the number of continuation frames accepted, modulo 256. -/
def Obligations.SequenceNumberCountsAcceptedFrames : Prop :=
  ∀ (s t : State) (f : Frame) (fs : List Frame) (es : List Event) (L : U16) (c : Bytes),
    s.Ready → decodeKind f.data = .start L c → isFor s.cfg f →
    (∀ g ∈ fs, isFor s.cfg g → ∀ L' c', decodeKind g.data ≠ .start L' c') →
    rxAll s (f :: fs) = some (.stillAssembling :: es, t) →
    (∀ e ∈ es, e = .stillAssembling ∨ e = .ignored ∨ e = .filtered) →
    t.ra.assembling = true ∧ t.ra.expectedLength = L ∧
      t.ra.nextSeq.toNat = (1 + es.count .stillAssembling) % 256

/-- R28 item 3, R25, R37: buffer bytes at or above `receivedLength` are never seen: from two states that differ in those alone every
step answers alike, and leaves states that differ in those alone. -/
def Obligations.StaleBufferBytesAreUnobservable : Prop :=
  ∀ s s' t : State, s.Similar s' → s.ra.buffer.Ok s.cfg → s'.ra.buffer.Ok s'.cfg → step s = .next t →
    ∃ t', step s' = .next t' ∧ t.Similar t'

/-! ## The document's properties -/

/-- R126: the frames of `SEND_MSG` to this node, padded or not, given to `RX_FRAME` in order from `Idle` or `Assembling`, are answered
`StillAssembling` but for the last, which delivers the message, and leave the reassembler `Idle` with zero scalars. -/
def Obligations.MessageRoundTrip : Prop :=
  ∀ (s sender : State) (msg : Bytes), s.Ready → s.cfg.legal → msg.length ≤ s.cfg.capacity.toNat →
    ∃ (fs : List Frame) (t : State),
      exec (.sendMsg s.cfg.selfId.toNat msg) sender = .next { sender with response := some (.frames fs) } ∧
      rxAll s fs = some (List.replicate (fs.length - 1) .stillAssembling ++ [.complete msg], t) ∧
      t.raStatus = ⟨false, 0, 0, 0⟩

/-- R126, R82 on the machine's own steps: a node that polls, its link driver holding the frames of a message, has delivered the
message after as many steps as there are frames, and goes on polling (log 6). -/
def Obligations.PollingReceiverDeliversTheMessage : Prop :=
  ∀ (s sender : State) (msg : Bytes) (rest : List Instr) (fs later : List Frame), s.Ready → s.cfg.legal →
    msg.length ≤ s.cfg.capacity.toNat →
    exec (.sendMsg s.cfg.selfId.toNat msg) sender = .next { sender with response := some (.frames fs) } →
    s.requests = .recvPoll :: rest → s.linkRx = fs ++ later →
    ∃ t : State, core.run fs.length s = .next t ∧ t.response = some (.event (.complete msg)) ∧
      t.raStatus = ⟨false, 0, 0, 0⟩ ∧ t.linkRx = later ∧ t.requests = s.requests

/-- R127: a declared length equal to capacity succeeds; capacity + 1 is rejected and leaves the reassembler `Idle`. -/
def Obligations.CapacityBoundary : Prop :=
  ∀ (s : State) (f : Frame) (lo hi p : Byte) (c : Bytes), s.Ready → isFor s.cfg f → c.length ≤ 4 →
    f.data = 0xAA#8 :: lo :: hi :: p :: c →
    (lo.toNat + 256 * hi.toNat = s.cfg.capacity.toNat → ∃ t : State, exec (.rxFrame f) s = .next t ∧
      (t.response = some (.event .stillAssembling) ∧ t.ra.expectedLength = s.cfg.capacity ∨
        t.response = some (.event (.complete (c.take s.cfg.capacity.toNat))))) ∧
    (lo.toNat + 256 * hi.toNat = s.cfg.capacity.toNat + 1 → ∃ t : State, exec (.rxFrame f) s = .next t ∧
      t.response = some (.event (.aborted .exceedsCapacity)) ∧ t.raStatus = ⟨false, 0, 0, 0⟩)

/-- R128: a continuation frame out of sequence aborts the assembly, and the frames of the next message still assemble. -/
def Obligations.SequenceGapThenNextMessage : Prop :=
  ∀ (s sender : State) (f : Frame) (q : Byte) (c msg : Bytes), s.Ready → s.cfg.legal → s.ra.assembling = true →
    isFor s.cfg f → c.length ≤ 6 → f.data = 0xCC#8 :: q :: c → q ≠ s.ra.nextSeq →
    msg.length ≤ s.cfg.capacity.toNat →
    ∃ (fs : List Frame) (t : State),
      exec (.sendMsg s.cfg.selfId.toNat msg) sender = .next { sender with response := some (.frames fs) } ∧
      rxAll s (f :: fs) = some (.aborted .sequenceMismatch ::
        (List.replicate (fs.length - 1) .stillAssembling ++ [.complete msg]), t) ∧
      t.raStatus = ⟨false, 0, 0, 0⟩

/-- R129: a start frame that arrives mid-assembly does what it does from `Idle`: the same event, the same scalars, and the same
events for every frame after it, so no byte of the old message is in the new one. -/
def Obligations.SupersedingStartDiscardsTheOldMessage : Prop :=
  ∀ (s u : State) (L : U16) (p : Byte) (c : Bytes), s.Ready → u.Ready → s.cfg = u.cfg →
    s.ra.assembling = true → u.ra.assembling = false → c.length ≤ 4 → L.toNat ≤ s.cfg.capacity.toNat →
    ∃ t v : State, exec (.start L p c) s = .next t ∧ exec (.start L p c) u = .next v ∧
      t.response = v.response ∧ t.raStatus = v.raStatus ∧
      (t.ra.assembling = true → t.ra.expectedLength = L) ∧
      ∀ fs : List Frame, (rxAll t fs).map Prod.fst = (rxAll v fs).map Prod.fst

/-- R130: a message of length 0 is one start frame without chunk, and the reassembler delivers the empty message upon it. -/
def Obligations.ZeroLengthMessage : Prop :=
  ∀ s sender : State, s.Ready → s.cfg.legal → sender.cfg.padEnable = false → ∃ f : Frame,
    exec (.sendMsg s.cfg.selfId.toNat []) sender = .next { sender with response := some (.frames [f]) } ∧
    f.data = [0xAA#8, 0x00#8, 0x00#8, 0x00#8] ∧ isFor s.cfg f ∧
    ∃ t : State, exec (.rxFrame f) s = .next t ∧ t.response = some (.event (.complete [])) ∧
      t.raStatus = ⟨false, 0, 0, 0⟩

/-- R186: an unknown frame and a frame for another node are harmless at any point of any sequence of received frames: the state of
the reassembler in the end and all the other events are as without it. -/
def Obligations.UnknownAndForeignFramesAreHarmlessAnywhere : Prop :=
  ∀ (s t : State) (fs gs : List Frame) (g : Frame) (es : List Event), s.Ready → g.data.length ≤ 8 →
    ¬ isFor s.cfg g ∨ decodeKind g.data = .unknown → rxAll s (fs ++ gs) = some (es, t) →
    ∃ (e : Event) (u : State), (e = .ignored ∨ e = .filtered) ∧
      rxAll s (fs ++ g :: gs) = some (es.take fs.length ++ e :: es.drop fs.length, u) ∧ u.ra = t.ra

/-! ## The pseudo-operations -/

/-- R80, R81, R45: `SEND_MSG` answers with one start frame carrying the first `min(L, 4)` bytes and then the continuation frames, the
`j`-th with sequence number `j` modulo 256 and message bytes `4 + 6(j-1)` on, each the frame its encoder operation answers with;
their number is that of R81. -/
def Obligations.SendMsgExpandsToEncoderOperations : Prop :=
  ∀ (s : State) (dest : Nat) (msg : Bytes), 1 ≤ dest → dest ≤ 5 → msg.length ≤ 65535 →
    ∃ fs : List Frame,
      exec (.sendMsg dest msg) s = .next { s with response := some (.frames fs) } ∧
      fs.length = (if msg.length ≤ 4 then 1 else 1 + (msg.length - 4 + 5) / 6) ∧
      (∃ f, fs[0]? = some f ∧
        exec (.encStart (BitVec.ofNat 3 dest) (BitVec.ofNat 16 msg.length) (msg.take (min msg.length 4))) s =
          .next { s with response := some (.frame f) }) ∧
      ∀ j, 1 ≤ j → j < fs.length → ∃ f, fs[j]? = some f ∧
        exec (.encCont (BitVec.ofNat 3 dest) (BitVec.ofNat 8 (j % 256)) ((msg.drop (4 + 6 * (j - 1))).take 6)) s =
          .next { s with response := some (.frame f) }

/-- R80, R148: `SEND_MSG` rejects a destination outside 1 .. 5 and a message above 65535 bytes, reports it, and has no other
effect. (The order of the two checks is the model's, log 7.) -/
def Obligations.SendMsgRejectsWithoutSideEffects : Prop :=
  ∀ (s : State) (dest : Nat) (msg : Bytes),
    (dest < 1 ∨ 5 < dest →
      exec (.sendMsg dest msg) s = .next { s with response := some (.sendRejected .invalidTarget) }) ∧
    (1 ≤ dest → dest ≤ 5 → 65535 < msg.length →
      exec (.sendMsg dest msg) s = .next { s with response := some (.sendRejected .messageTooLong) })

/-- R82: one iteration of `RECV_POLL`: with no frame received nothing happens; the oldest frame received is given to `RX_FRAME` once,
with its effect and its event; and the loop goes round. (One iteration a step is the model's, log 6.) -/
def Obligations.RecvPollGivesTheOldestFrameToRxFrame : Prop :=
  (∀ s : State, s.linkRx = [] →
    exec .recvPoll s = .next { s with response := none, requests := .recvPoll :: s.requests }) ∧
  ∀ (s : State) (f : Frame) (fs : List Frame), s.Ready → s.linkRx = f :: fs → f.data.length ≤ 8 →
    ∃ (ra : ReassemblyState) (e : Event),
      exec (.rxFrame f) s = .next { s with ra := ra, response := some (.event e) } ∧
      exec .recvPoll s = .next { s with
        ra := ra, response := some (.event e), linkRx := fs, requests := .recvPoll :: s.requests }

/-- R177: the Reliable Frame Sender. A frame answered `Busy` on the first `n - 1` attempts and taken on attempt `n`, within the
budget, is sent; one answered `Busy` on every attempt of the budget fails with `BusyTimeout` and does not reach the link; any other
link error is passed on at once. (That the frame does not reach the link then either is the model's, log 21.) -/
def Obligations.FrameSenderRetriesWhileBusy : Prop :=
  ∀ (link : Nat → Option LinkError) (budget k : Nat) (f : Frame),
    (∀ n, 1 ≤ n → n ≤ budget → (∀ i, i + 1 < n → link (k + i) = some .busy) →
      (link (k + (n - 1)) = none →
        sendFrame link budget k = (none, k + n) ∧ transmitAll link budget [f] k = ([f], none)) ∧
      (link (k + (n - 1)) = some .initFailure →
        sendFrame link budget k = (some .initFailure, k + n) ∧
          transmitAll link budget [f] k = ([], some .initFailure)) ∧
      (link (k + (n - 1)) = some .transmitFailure →
        sendFrame link budget k = (some .transmitFailure, k + n) ∧
          transmitAll link budget [f] k = ([], some .transmitFailure))) ∧
    ((∀ i, i < budget → link (k + i) = some .busy) →
      sendFrame link budget k = (some .busyTimeout, k + budget) ∧
        transmitAll link budget [f] k = ([], some .busyTimeout))

/-- R181, R180: a link that fails in the middle of a message leaves the receiver in the middle of it: the frames that reached the
link are the first ones, each of them is answered `StillAssembling`, and the receiver has then the message's length and is
`Assembling`. (R177 says of `BusyTimeout` only that the failing frame does not reach the link; for an `InitFailure` or a
`TransmitFailure` this is the model's, log 21, and with it that the frames that reached the link are a proper initial part.) -/
def Obligations.PartialTransmissionStallsTheReceiver : Prop :=
  ∀ (s sender : State) (msg : Bytes) (fs sent : List Frame) (link : Nat → Option LinkError) (budget k : Nat)
    (e : SendFailure), s.Ready → s.cfg.legal → msg.length ≤ s.cfg.capacity.toNat →
    exec (.sendMsg s.cfg.selfId.toNat msg) sender = .next { sender with response := some (.frames fs) } →
    transmitAll link budget fs k = (sent, some e) →
    sent.length < fs.length ∧ sent = fs.take sent.length ∧
    (sent ≠ [] → ∃ t : State, rxAll s sent = some (List.replicate sent.length .stillAssembling, t) ∧
      t.ra.assembling = true ∧ t.ra.expectedLength.toNat = msg.length ∧ t.ra.nextSeq.toNat = sent.length % 256)

/-! ## Codes -/

/-- R31, R140, R100, R76: the numeric codes of events, errors and frame kinds, and the selectors. -/
def Obligations.OutcomeCodes : Prop :=
  Event.code .stillAssembling = 0 ∧ (∀ m, Event.code (.complete m) = 1) ∧ (∀ e, Event.code (.aborted e) = 2) ∧
  Event.code .ignored = 3 ∧ Event.code .filtered = 4 ∧
  ReassemblyError.code .exceedsCapacity = 1 ∧ ReassemblyError.code .sequenceMismatch = 2 ∧
  ReassemblyError.code .unexpectedContinuation = 3 ∧ ReassemblyError.code .malformed = 4 ∧
  (∀ e : Event, e.errorCode = 0 ↔ e.code ≠ 2) ∧
  (∀ L c, kindCode (.start L c) = 0) ∧ (∀ q c, kindCode (.continuation q c) = 1) ∧ kindCode .unknown = 2 ∧
  (∀ a, kindCode (.malformed a) = 3) ∧
  Selector.code .encStart = 0 ∧ Selector.code .encCont = 1 ∧ Selector.code .decodeFrame = 2 ∧
  Selector.code .rxFrame = 3 ∧ Selector.code .reset = 4
end

