-- ==== Sys2Proof/Laws/State.lean ====
section
/-! SUPPORT. One lemma per field per update, and what each shared operation can do, said once. -/

namespace Sys2Proof

/-! ## The literals (R7, R8, R9) -/

@[simp] theorem lit_startMagic : lit.startMagic = 0xAA#8 := rfl
@[simp] theorem lit_contMagic : lit.contMagic = 0xCC#8 := rfl
@[simp] theorem lit_placeholder : lit.placeholder = 0x00#8 := rfl
@[simp] theorem lit_frameMax : lit.frameMax = 8 := rfl
@[simp] theorem lit_startHdr : lit.startHdr = 4 := rfl
@[simp] theorem lit_contHdr : lit.contHdr = 2 := rfl
@[simp] theorem lit_startChunkMax : lit.startChunkMax = 4 := rfl
@[simp] theorem lit_contChunkMax : lit.contChunkMax = 6 := rfl
@[simp] theorem lit_idBase : lit.idBase = 0x200 := rfl
@[simp] theorem lit_idWidth : lit.idWidth = 11 := rfl
@[simp] theorem lit_destMin : lit.destMin = 1 := rfl
@[simp] theorem lit_destMax : lit.destMax = 5 := rfl
@[simp] theorem lit_msgLenMax : lit.msgLenMax = 65535 := rfl
@[simp] theorem lit_seqMod : lit.seqMod = 256 := rfl

/-- The relations of R7, R8 and R12 hold of this hardware's literals. -/
theorem lit_related : lit.related := by unfold Literals.related; decide

end Sys2Proof

namespace Sys2Proof.Machine

open Sys2Proof

/-! ## `ReturnToIdle()` (R112) -/

@[simp] theorem returnToIdle_expectedLength (ra : ReassemblyState) : (returnToIdle ra).expectedLength = 0 := rfl
@[simp] theorem returnToIdle_receivedLength (ra : ReassemblyState) : (returnToIdle ra).receivedLength = 0 := rfl
@[simp] theorem returnToIdle_nextSeq (ra : ReassemblyState) : (returnToIdle ra).nextSeq = 0 := rfl
@[simp] theorem returnToIdle_assembling (ra : ReassemblyState) : (returnToIdle ra).assembling = false := rfl
@[simp] theorem returnToIdle_buffer (ra : ReassemblyState) : (returnToIdle ra).buffer = ra.buffer := rfl
@[simp] theorem returnToIdle_status (ra : ReassemblyState) : (returnToIdle ra).status = StatusView.idle := rfl

/-! ## `State.respond` -/

@[simp] theorem respond_cfg (s : State) (r : Response) : (s.respond r).cfg = s.cfg := rfl
@[simp] theorem respond_ra (s : State) (r : Response) : (s.respond r).ra = s.ra := rfl
@[simp] theorem respond_resetDone (s : State) (r : Response) : (s.respond r).resetDone = s.resetDone := rfl
@[simp] theorem respond_requests (s : State) (r : Response) : (s.respond r).requests = s.requests := rfl
@[simp] theorem respond_linkRx (s : State) (r : Response) : (s.respond r).linkRx = s.linkRx := rfl
@[simp] theorem respond_response (s : State) (r : Response) : (s.respond r).response = some r := rfl

/-! ## `State.again` -/

@[simp] theorem again_cfg (s : State) (i : Instr) : (s.again i).cfg = s.cfg := rfl
@[simp] theorem again_ra (s : State) (i : Instr) : (s.again i).ra = s.ra := rfl
@[simp] theorem again_resetDone (s : State) (i : Instr) : (s.again i).resetDone = s.resetDone := rfl
@[simp] theorem again_requests (s : State) (i : Instr) : (s.again i).requests = i :: s.requests := rfl
@[simp] theorem again_linkRx (s : State) (i : Instr) : (s.again i).linkRx = s.linkRx := rfl
@[simp] theorem again_response (s : State) (i : Instr) : (s.again i).response = s.response := rfl

/-! ## What the shared operations answer -/

/-- Giving the reassembler a frame, when its step answers. -/
theorem receive_of_ok {f : Config → ReassemblyState → RaResult} {s : State} {ra : ReassemblyState} {e : Event}
    (h : s.resetDone = true) (hf : f s.cfg s.ra = .ok (ra, e)) :
    receive f s = .next { s with ra := ra, response := some (.event e) } := by
  simp [receive, h, hf]

/-- Everything giving the reassembler a frame can do when it answers a next state. -/
theorem receive_next {f : Config → ReassemblyState → RaResult} {s t : State} (h : receive f s = .next t) :
    s.resetDone = true ∧
      ∃ ra e, f s.cfg s.ra = .ok (ra, e) ∧ t = { s with ra := ra, response := some (.event e) } := by
  unfold receive at h
  split at h
  · rename_i hl
    split at h
    · rename_i ra e hf
      cases h
      exact ⟨hl, ra, e, hf, rfl⟩
    · cases h
  · cases h

theorem receive_before_reset {f : Config → ReassemblyState → RaResult} {s : State} (h : s.resetDone = false) :
    receive f s = .refused .beforeReset := by
  simp [receive, h]

theorem withFrame_fits {n : Nat} (h : n ≤ 8) (k : Result) : withFrame n k = k := if_pos h

theorem withFrame_next {n : Nat} {k : Result} {t : State} (h : withFrame n k = .next t) : n ≤ 8 ∧ k = .next t := by
  unfold withFrame at h
  split at h
  · exact ⟨‹_›, h⟩
  · cases h

/-- A frame of more than `FRAME_MAX` bytes is refused (R72). -/
theorem withFrame_reserved {n : Nat} (h : 8 < n) (k : Result) : withFrame n k = .refused .reservedFrameLength :=
  if_neg (Nat.not_le_of_lt h)

theorem respondFrame_next {s t : State} {r : Except Fault Frame} (h : respondFrame s r = .next t) :
    ∃ f, r = .ok f ∧ t = s.respond (.frame f) := by
  cases r with
  | ok f => cases h; exact ⟨f, rfl, rfl⟩
  | error e => cases h

end Sys2Proof.Machine
end

