-- ==== Sys2Proof/Laws/Codec.lean ====
section
/-! SUPPORT. The byte order of `totalLength`, the frame decoder by the shape of its data, and the parsers that read back what the
encoder of requests writes. -/

namespace Sys2Proof

/-! ## Byte order (R44, R63) -/

theorem joinBytes_lo_hi (v : U16) : joinBytes (loByte v) (hiByte v) = v := by
  apply BitVec.eq_of_getLsbD_eq
  intro i hi
  simp only [joinBytes, loByte, hiByte, BitVec.getLsbD_or, BitVec.getLsbD_setWidth, BitVec.getLsbD_shiftLeft,
    BitVec.getLsbD_ushiftRight]
  by_cases h : i < 8
  · simp [hi, h]
  · have h8 : i - 8 < 8 := by omega
    have h16 : i - 8 < 16 := by omega
    simp [hi, h, h8, h16, show 8 + (i - 8) = i by omega]

theorem loByte_joinBytes (lo hi : Byte) : loByte (joinBytes lo hi) = lo := by
  apply BitVec.eq_of_getLsbD_eq
  intro i hi
  simp only [joinBytes, loByte, BitVec.getLsbD_or, BitVec.getLsbD_setWidth, BitVec.getLsbD_shiftLeft]
  simp [hi, show i < 16 by omega]

theorem hiByte_joinBytes (lo hi : Byte) : hiByte (joinBytes lo hi) = hi := by
  apply BitVec.eq_of_getLsbD_eq
  intro i hi'
  simp only [joinBytes, hiByte, BitVec.getLsbD_or, BitVec.getLsbD_setWidth, BitVec.getLsbD_shiftLeft,
    BitVec.getLsbD_ushiftRight]
  simp [hi', show 8 + i < 16 by omega, show i < 16 by omega]

/-- `totalLength` is the low byte plus 256 times the high byte (R44, R63). -/
theorem joinBytes_toNat (lo hi : Byte) : (joinBytes lo hi).toNat = lo.toNat + 256 * hi.toNat := by
  have h : joinBytes lo hi = hi ++ lo := by
    apply BitVec.eq_of_getLsbD_eq
    intro i hi'
    simp only [joinBytes, BitVec.getLsbD_or, BitVec.getLsbD_setWidth, BitVec.getLsbD_shiftLeft, BitVec.getLsbD_append]
    by_cases h : i < 8
    · simp [h, hi']
    · simp [h, show i < 16 from hi', show i - 8 < 16 by omega, BitVec.getLsbD_of_ge lo i (by omega)]
  rw [h, BitVec.toNat_append, Nat.shiftLeft_eq, Nat.mul_comm]
  have hl : lo.toNat < 2 ^ 8 := lo.isLt
  rw [← Nat.two_pow_add_eq_or_of_lt hl]
  omega

@[simp] theorem natToBytes_length (k n : Nat) : (natToBytes k n).length = k := by
  induction k generalizing n with
  | zero => rfl
  | succ k ih => simp [natToBytes, ih]

theorem bytesToNat_natToBytes (k n : Nat) (h : n < 256 ^ k) : bytesToNat (natToBytes k n) = n := by
  induction k generalizing n with
  | zero => simp at h; simp [natToBytes, bytesToNat, h]
  | succ k ih =>
    have : n / 256 < 256 ^ k := by
      rw [Nat.div_lt_iff_lt_mul (by decide)]; rw [pow_succ] at h; exact h
    simp only [natToBytes, bytesToNat, ih _ this, BitVec.toNat_ofNat]
    omega

theorem bytesToNat_lt (bs : Bytes) : bytesToNat bs < 256 ^ bs.length := by
  induction bs with
  | nil => simp [bytesToNat]
  | cons b bs ih =>
    have := b.isLt
    simp only [bytesToNat, List.length_cons, pow_succ]
    omega

theorem natToBytes_bytesToNat (bs : Bytes) : natToBytes bs.length (bytesToNat bs) = bs := by
  induction bs with
  | nil => rfl
  | cons b bs ih =>
    have hb := b.isLt
    have h1 : (b.toNat + 256 * bytesToNat bs) / 256 = bytesToNat bs := by omega
    have h2 : BitVec.ofNat 8 (b.toNat + 256 * bytesToNat bs) = b := by
      apply BitVec.eq_of_toNat_eq; rw [BitVec.toNat_ofNat]; omega
    simp only [List.length_cons, natToBytes, bytesToNat, h1, h2, ih]

/-! ## The frame decoder by the shape of its data (R66, R101) -/

@[simp] theorem decodeKind_nil : decodeKind [] = .unknown := rfl

theorem decodeKind_shortStart {t : Bytes} (h : t.length < 3) : decodeKind (0xAA#8 :: t) = .malformed .start := by
  simp [decodeKind, show t.length + 1 < 4 by omega]

@[simp] theorem decodeKind_start (lo hi p : Byte) (c : Bytes) :
    decodeKind (0xAA#8 :: lo :: hi :: p :: c) = .start (joinBytes lo hi) c := by
  simp [decodeKind]

@[simp] theorem decodeKind_shortCont : decodeKind [0xCC#8] = .malformed .continuation := rfl

@[simp] theorem decodeKind_cont (q : Byte) (c : Bytes) : decodeKind (0xCC#8 :: q :: c) = .continuation q c := by
  simp [decodeKind]

theorem decodeKind_other {b : Byte} (ha : b ≠ 0xAA#8) (hc : b ≠ 0xCC#8) (t : Bytes) : decodeKind (b :: t) = .unknown := by
  simp [decodeKind, ha, hc]

@[simp] theorem decodeKind_startData (totalLength : U16) (p : Byte) (chunk : Bytes) :
    decodeKind (startData totalLength p chunk) = .start totalLength chunk := by
  simp only [startData, lit_startMagic, List.cons_append, List.nil_append, decodeKind_start, joinBytes_lo_hi]

@[simp] theorem decodeKind_contData (seq : Byte) (chunk : Bytes) :
    decodeKind (contData seq chunk) = .continuation seq chunk := by
  simp only [contData, lit_contMagic, List.cons_append, List.nil_append, decodeKind_cont]

@[simp] theorem length_startData (totalLength : U16) (p : Byte) (chunk : Bytes) :
    (startData totalLength p chunk).length = chunk.length + 4 := by simp [startData]

@[simp] theorem length_contData (seq : Byte) (chunk : Bytes) : (contData seq chunk).length = chunk.length + 2 := by
  simp [contData]

/-- The data of every frame has one of six shapes, the rows of R66's map. -/
theorem frameData_cases (d : Bytes) :
    d = [] ∨ (∃ t : Bytes, t.length < 3 ∧ d = 0xAA#8 :: t) ∨ (∃ lo hi p c, d = 0xAA#8 :: lo :: hi :: p :: c) ∨
      d = [0xCC#8] ∨ (∃ q c, d = 0xCC#8 :: q :: c) ∨ ∃ b t, b ≠ 0xAA#8 ∧ b ≠ 0xCC#8 ∧ d = b :: t := by
  match d with
  | [] => exact .inl rfl
  | b :: t =>
    by_cases ha : b = 0xAA#8
    · subst ha
      match t with
      | [] | [_] | [_, _] => exact .inr (.inl ⟨_, by simp, rfl⟩)
      | lo :: hi :: p :: c => exact .inr (.inr (.inl ⟨lo, hi, p, c, rfl⟩))
    · by_cases hc : b = 0xCC#8
      · subst hc
        match t with
        | [] => exact .inr (.inr (.inr (.inl rfl)))
        | q :: c => exact .inr (.inr (.inr (.inr (.inl ⟨q, c, rfl⟩))))
      · exact .inr (.inr (.inr (.inr (.inr ⟨b, t, ha, hc, rfl⟩))))

@[simp] theorem wireInstr_nil : wireInstr [] = .unknown [] := rfl

theorem wireInstr_shortStart {t : Bytes} (h : t.length < 3) : wireInstr (0xAA#8 :: t) = .malformedStart t := by
  rw [wireInstr, decodeKind_shortStart h]; rfl

@[simp] theorem wireInstr_start (lo hi p : Byte) (c : Bytes) :
    wireInstr (0xAA#8 :: lo :: hi :: p :: c) = .start (joinBytes lo hi) p c := by
  rw [wireInstr, decodeKind_start]; rfl

@[simp] theorem wireInstr_shortCont : wireInstr [0xCC#8] = .malformedCont := rfl

@[simp] theorem wireInstr_cont (q : Byte) (c : Bytes) : wireInstr (0xCC#8 :: q :: c) = .cont q c := by
  rw [wireInstr, decodeKind_cont]

theorem wireInstr_other {b : Byte} (ha : b ≠ 0xAA#8) (hc : b ≠ 0xCC#8) (t : Bytes) :
    wireInstr (b :: t) = .unknown (b :: t) := by
  rw [wireInstr, decodeKind_other ha hc]

/-! ## Well-formedness, constructor by constructor -/

@[simp] theorem wf_start (L : U16) (p : Byte) (c : Bytes) : (Instr.start L p c).wf = true ↔ c.length ≤ 4 :=
  decide_eq_true_iff

@[simp] theorem wf_cont (q : Byte) (c : Bytes) : (Instr.cont q c).wf = true ↔ c.length ≤ 6 := decide_eq_true_iff

@[simp] theorem wf_malformedStart (t : Bytes) : (Instr.malformedStart t).wf = true ↔ t.length + 1 < 4 :=
  decide_eq_true_iff

@[simp] theorem wf_malformedCont : Instr.malformedCont.wf = true := rfl

@[simp] theorem wf_unknown_nil : (Instr.unknown []).wf = true := rfl

@[simp] theorem wf_unknown_cons (b : Byte) (t : Bytes) :
    (Instr.unknown (b :: t)).wf = true ↔ t.length + 1 ≤ 8 ∧ b ≠ 0xAA#8 ∧ b ≠ 0xCC#8 := by
  have h : (Instr.unknown (b :: t)).wf =
      (decide (t.length + 1 ≤ 8) && !decide (b = 0xAA#8) && !decide (b = 0xCC#8)) := by
    by_cases h1 : b = 0xAA#8
    · subst h1; rfl
    · by_cases h2 : b = 0xCC#8
      · subst h2; rfl
      · simp only [Instr.wf, Bytes.leads, List.head?_cons, lit_startMagic, lit_contMagic]
        have : ∀ x : Byte, (some b == some x) = decide (b = x) := fun x => by
          by_cases h : b = x <;> simp [h]
        rw [this, this]; rfl
  rw [h]; simp [and_assoc]

@[simp] theorem wf_encStart (d : Dest) (L : U16) (c : Bytes) : (Instr.encStart d L c).wf = true ↔ c.length ≤ 255 :=
  decide_eq_true_iff

@[simp] theorem wf_encCont (d : Dest) (q : Byte) (c : Bytes) : (Instr.encCont d q c).wf = true ↔ c.length ≤ 255 :=
  decide_eq_true_iff

@[simp] theorem wf_decodeFrame (d : Bytes) : (Instr.decodeFrame d).wf = true ↔ d.length ≤ 8 := decide_eq_true_iff

@[simp] theorem wf_rxFrame (f : Frame) : (Instr.rxFrame f).wf = true ↔ f.data.length ≤ 8 := decide_eq_true_iff

@[simp] theorem wf_reset : Instr.reset.wf = true := rfl

@[simp] theorem wf_reservedOp (op : BitVec 3) : (Instr.reservedOp op).wf = true ↔ 5 ≤ op.toNat := decide_eq_true_iff

@[simp] theorem wf_sendMsg (d : Nat) (m : Bytes) : (Instr.sendMsg d m).wf = true ↔ d < 256 ^ 1 ∧ m.length < 256 ^ 4 := by
  simp only [Instr.wf, Bool.and_eq_true, decide_eq_true_eq]

@[simp] theorem wf_recvPoll : Instr.recvPoll.wf = true := rfl

/-! ## Parsers -/

@[simp] theorem andThen_ok {α β : Type} {p : Parser α} {k : α → Parser β} {bs rest : Bytes} {a : α}
    (h : p bs = .ok (a, rest)) : Parser.andThen p k bs = k a rest := by
  simp [Parser.andThen, h]

/-- Everything a parser followed by another can do when it answers. -/
theorem andThen_eq_ok {α β : Type} {p : Parser α} {k : α → Parser β} {bs rest : Bytes} {b : β}
    (h : Parser.andThen p k bs = .ok (b, rest)) : ∃ a mid, p bs = .ok (a, mid) ∧ k a mid = .ok (b, rest) := by
  unfold Parser.andThen at h
  split at h
  · exact ⟨_, _, ‹_›, h⟩
  · cases h

@[simp] theorem done_apply {α : Type} (a : α) (bs : Bytes) : Parser.done a bs = .ok (a, bs) := rfl

theorem done_eq_ok {α : Type} {a b : α} {bs rest : Bytes} (h : Parser.done a bs = .ok (b, rest)) :
    b = a ∧ rest = bs := by
  cases h; exact ⟨rfl, rfl⟩

@[simp] theorem reject_apply {α : Type} (e : DecodeError) (bs : Bytes) : (Parser.reject e : Parser α) bs = .error e := rfl

@[simp] theorem takeByte_cons (b : Byte) (bs : Bytes) : takeByte (b :: bs) = .ok (b, bs) := rfl

theorem takeByte_eq_ok {bs rest : Bytes} {b : Byte} (h : takeByte bs = .ok (b, rest)) : bs = b :: rest := by
  cases bs with
  | nil => cases h
  | cons c bs => cases h; rfl

theorem takeBytes_append {n : Nat} {bs : Bytes} (h : bs.length = n) (rest : Bytes) :
    takeBytes n (bs ++ rest) = .ok (bs, rest) := by
  subst h; simp [takeBytes]

theorem takeBytes_eq_ok {n : Nat} {bs cs rest : Bytes} (h : takeBytes n bs = .ok (cs, rest)) :
    cs.length = n ∧ bs = cs ++ rest := by
  unfold takeBytes at h
  split at h
  · cases h; simp; omega
  · cases h

theorem takeNat_append {k n : Nat} (h : n < 256 ^ k) (rest : Bytes) :
    takeNat k (natToBytes k n ++ rest) = .ok (n, rest) := by
  rw [takeNat, andThen_ok (takeBytes_append (natToBytes_length k n) rest), done_apply, bytesToNat_natToBytes k n h]

theorem takeNat_eq_ok {k n : Nat} {bs rest : Bytes} (h : takeNat k bs = .ok (n, rest)) :
    n < 256 ^ k ∧ bs = natToBytes k n ++ rest := by
  obtain ⟨cs, mid, h1, h2⟩ := andThen_eq_ok h
  obtain ⟨rfl, rfl⟩ := takeBytes_eq_ok h1
  obtain ⟨rfl, rfl⟩ := done_eq_ok h2
  exact ⟨bytesToNat_lt cs, by rw [natToBytes_bytesToNat]⟩

theorem takeDest_cons (d : Dest) (rest : Bytes) : takeDest (d.setWidth 8 :: rest) = .ok (d, rest) := by
  have h : (d.setWidth 8).toNat = d.toNat := by simp; omega
  have h8 : d.toNat < 8 := d.isLt
  rw [takeDest, andThen_ok (takeByte_cons _ _), if_pos (by omega), done_apply]
  congr 2
  apply BitVec.eq_of_toNat_eq
  simp

theorem takeDest_eq_ok {bs rest : Bytes} {d : Dest} (h : takeDest bs = .ok (d, rest)) : bs = d.setWidth 8 :: rest := by
  obtain ⟨b, mid, h1, h2⟩ := andThen_eq_ok h
  split at h2
  · rename_i hb
    obtain ⟨rfl, rfl⟩ := done_eq_ok h2
    rw [takeByte_eq_ok h1]
    congr 1
    apply BitVec.eq_of_toNat_eq
    simp; omega
  · cases h2

theorem takeId_append (id : BusId) (rest : Bytes) : takeId (natToBytes 2 id.toNat ++ rest) = .ok (id, rest) := by
  have h : id.toNat < 2 ^ lit.idWidth := id.isLt
  have h16 : id.toNat < 256 ^ 2 := Nat.lt_trans h (by decide)
  rw [takeId, andThen_ok (takeNat_append h16 rest), if_pos h, done_apply, BitVec.ofNat_toNat, BitVec.setWidth_eq]

theorem takeId_eq_ok {bs rest : Bytes} {id : BusId} (h : takeId bs = .ok (id, rest)) :
    bs = natToBytes 2 id.toNat ++ rest := by
  obtain ⟨n, mid, h1, h2⟩ := andThen_eq_ok h
  split at h2
  · rename_i hn
    obtain ⟨rfl, rfl⟩ := done_eq_ok h2
    rw [(takeNat_eq_ok h1).2, BitVec.toNat_ofNat, Nat.mod_eq_of_lt hn]
  · cases h2

theorem takeU16_cons (v : U16) (rest : Bytes) : takeU16 (loByte v :: hiByte v :: rest) = .ok (v, rest) := by
  rw [takeU16, andThen_ok (takeByte_cons _ _), andThen_ok (takeByte_cons _ _), done_apply, joinBytes_lo_hi]

theorem takeU16_eq_ok {bs rest : Bytes} {v : U16} (h : takeU16 bs = .ok (v, rest)) :
    bs = loByte v :: hiByte v :: rest := by
  obtain ⟨lo, m1, h1, h2⟩ := andThen_eq_ok h
  obtain ⟨hi, m2, h3, h4⟩ := andThen_eq_ok h2
  obtain ⟨rfl, rfl⟩ := done_eq_ok h4
  rw [takeByte_eq_ok h1, takeByte_eq_ok h3, loByte_joinBytes, hiByte_joinBytes]

theorem ofNat_toNat_byte {n : Nat} (h : n ≤ 255) : (BitVec.ofNat 8 n).toNat = n := by
  rw [BitVec.toNat_ofNat]; omega

theorem takeChunk_counted {c : Bytes} (h : c.length ≤ 255) (rest : Bytes) :
    takeChunk (countedBytes c ++ rest) = .ok (c, rest) := by
  rw [takeChunk, countedBytes, List.cons_append, andThen_ok (takeByte_cons _ _)]
  exact takeBytes_append (ofNat_toNat_byte h).symm rest

theorem counted_eq {n : Byte} {c rest : Bytes} (h : c.length = n.toNat) : n :: (c ++ rest) = countedBytes c ++ rest := by
  rw [countedBytes, List.cons_append, h, BitVec.ofNat_toNat, BitVec.setWidth_eq]

theorem takeChunk_eq_ok {bs c rest : Bytes} (h : takeChunk bs = .ok (c, rest)) :
    c.length ≤ 255 ∧ bs = countedBytes c ++ rest := by
  obtain ⟨n, mid, h1, h2⟩ := andThen_eq_ok h
  obtain ⟨hn, rfl⟩ := takeBytes_eq_ok h2
  have := n.isLt
  exact ⟨by omega, by rw [takeByte_eq_ok h1, counted_eq hn]⟩

theorem takeData_counted {d : Bytes} (h : d.length ≤ 8) (rest : Bytes) :
    takeData (countedBytes d ++ rest) = .ok (d, rest) := by
  have hn := ofNat_toNat_byte (show d.length ≤ 255 by omega)
  rw [takeData, countedBytes, List.cons_append, andThen_ok (takeByte_cons _ _), hn, if_pos (by simpa using h)]
  exact takeBytes_append rfl rest

theorem takeData_eq_ok {bs d rest : Bytes} (h : takeData bs = .ok (d, rest)) :
    d.length ≤ 8 ∧ bs = countedBytes d ++ rest := by
  obtain ⟨n, mid, h1, h2⟩ := andThen_eq_ok h
  split at h2
  · rename_i hle
    obtain ⟨hn, rfl⟩ := takeBytes_eq_ok h2
    exact ⟨by simpa [hn] using hle, by rw [takeByte_eq_ok h1, counted_eq hn]⟩
  · cases h2

/-- A reserved frame length is rejected, whatever follows (R72). -/
theorem takeData_reserved {n : Byte} (h : 8 < n.toNat) (rest : Bytes) :
    takeData (n :: rest) = .error .reservedFrameLength := by
  rw [takeData, andThen_ok (takeByte_cons _ _), if_neg (by simpa using h), reject_apply]

/-- A leading byte that selects `sel` is `sel`'s code. -/
theorem code_of_ofByte {b : Byte} {sel : Selector} (h : Selector.ofByte b = some sel) : sel.code = b := by
  unfold Selector.ofByte at h
  repeat' split at h
  all_goals first
    | (cases h; done)
    | (cases h; exact Eq.symm ‹_›)
    | (rename_i hb; cases h; apply BitVec.eq_of_toNat_eq; simp [Selector.code]; omega)

theorem ofByte_reserved {b : Byte} {op : BitVec 3} (h : Selector.ofByte b = some (.reserved op)) : 5 ≤ op.toNat := by
  revert b op; decide

theorem decode_cons {b : Byte} {sel : Selector} (h : Selector.ofByte b = some sel) (bs : Bytes) :
    decode (b :: bs) = decodeOperands sel bs := by
  rw [decode, andThen_ok (takeByte_cons _ _), h]

/-- Everything the decoder of requests can do when it answers: a leading byte that selects, and its operands. -/
theorem decode_eq_ok {bs rest : Bytes} {i : Instr} (h : decode bs = .ok (i, rest)) :
    ∃ sel mid, Selector.ofByte sel.code = some sel ∧ bs = sel.code :: mid ∧ decodeOperands sel mid = .ok (i, rest) := by
  obtain ⟨b, mid, h1, h2⟩ := andThen_eq_ok h
  cases hs : Selector.ofByte b with
  | none => simp [hs] at h2
  | some sel =>
    have hb := code_of_ofByte hs
    exact ⟨sel, mid, by rw [hb, hs], by rw [hb, takeByte_eq_ok h1], by simpa [hs] using h2⟩

end Sys2Proof
end

