-- ==== Sys2Proof/Laws/Memory.lean ====
section
/-! SUPPORT. The buffer: what a read after a write gives, and that every operation keeps the canonical form and the bound. -/

namespace Sys2Proof.Machine

open Sys2Proof

@[simp] theorem Memory.read_nil (a : Nat) : Memory.read [] a = 0 := rfl

theorem Memory.read_cons (k : Nat) (v : Byte) (m : Memory) (a : Nat) :
    Memory.read ((k, v) :: m) a = if k = a then v else m.read a := rfl

theorem Memory.read_of_absent {m : Memory} {a : Nat} (h : ∀ c ∈ m, c.1 ≠ a) : m.read a = 0 := by
  induction m with
  | nil => rfl
  | cons c m ih =>
    rw [Memory.read_cons, if_neg (h c (by simp))]
    exact ih fun c hc => h c (by simp [hc])

theorem Memory.read_cell_append (a : Nat) (v : Byte) (m : Memory) (h : ∀ c ∈ m, c.1 ≠ a) (b : Nat) :
    Memory.read (Memory.cell a v ++ m) b = if b = a then v else m.read b := by
  unfold Memory.cell
  by_cases hv : v = Memory.unlisted
  · rw [if_pos hv, List.nil_append]
    by_cases hb : b = a
    · rw [if_pos hb, hb, hv]; exact Memory.read_of_absent h
    · rw [if_neg hb]
  · rw [if_neg hv, List.singleton_append, Memory.read_cons]
    simp only [eq_comm]

theorem Memory.wf_tail {c : Host.Cell} {m : Memory} (h : Memory.wf (c :: m)) : Memory.wf m :=
  ⟨(List.pairwise_cons.1 h.1).2, fun d hd => h.2 d (by simp [hd])⟩

theorem Memory.head_lt {k : Nat} {w : Byte} {m : Memory} (h : Memory.wf ((k, w) :: m)) : ∀ c ∈ m, k < c.1 :=
  fun c hc => (List.pairwise_cons.1 h.1).1 c hc

/-- A read after a write: the byte written at its index, the old byte everywhere else. -/
theorem Memory.read_write {m : Memory} (h : m.wf) (a : Nat) (v : Byte) (b : Nat) :
    (m.write a v).read b = if b = a then v else m.read b := by
  induction m with
  | nil => simpa [Memory.write] using Memory.read_cell_append a v [] (by simp) b
  | cons c m ih =>
    obtain ⟨k, w⟩ := c
    have hk := Memory.head_lt h
    unfold Memory.write
    split
    · rename_i hlt
      exact Memory.read_cell_append a v _ (by
        intro c hc
        rcases List.mem_cons.1 hc with rfl | hc
        · exact Nat.ne_of_gt hlt
        · have := hk c hc; omega) b
    · split
      · rename_i _ heq
        subst heq
        rw [Memory.read_cell_append a v m (fun c hc => Nat.ne_of_gt (hk c hc)) b, Memory.read_cons]
        by_cases hb : b = a
        · simp [hb]
        · simp [hb, Ne.symm hb]
      · rename_i hne
        rw [Memory.read_cons, Memory.read_cons, ih (Memory.wf_tail h)]
        by_cases hb : k = b
        · subst hb; simp [Ne.symm hne]
        · simp [hb]

theorem Memory.mem_cell {a : Nat} {v : Byte} {c : Host.Cell} (h : c ∈ Memory.cell a v) :
    c = (a, v) ∧ v ≠ Memory.unlisted := by
  unfold Memory.cell at h
  split at h <;> simp_all

theorem Memory.mem_write {m : Memory} {a : Nat} {v : Byte} {c : Host.Cell} (h : c ∈ m.write a v) :
    (c = (a, v) ∧ v ≠ Memory.unlisted) ∨ c ∈ m := by
  induction m with
  | nil => exact .inl (Memory.mem_cell h)
  | cons d m ih =>
    obtain ⟨k, w⟩ := d
    unfold Memory.write at h
    split at h
    · rcases List.mem_append.1 h with h | h
      · exact .inl (Memory.mem_cell h)
      · exact .inr h
    · split at h
      · rcases List.mem_append.1 h with h | h
        · exact .inl (Memory.mem_cell h)
        · exact .inr (by simp [h])
      · rcases List.mem_cons.1 h with h | h
        · exact .inr (by simp [h])
        · rcases ih h with h | h
          · exact .inl h
          · exact .inr (by simp [h])

theorem Memory.pairwise_cell_append {a : Nat} {v : Byte} {m : Memory}
    (hm : m.Pairwise fun x y : Host.Cell => x.1 < y.1) (h : ∀ c ∈ m, a < c.1) :
    (Memory.cell a v ++ m).Pairwise fun x y : Host.Cell => x.1 < y.1 := by
  unfold Memory.cell
  split
  · simpa using hm
  · simpa using ⟨fun k w hc => h (k, w) hc, hm⟩

/-- A write keeps the canonical form. -/
theorem Memory.write_wf {m : Memory} (h : m.wf) (a : Nat) (v : Byte) : (m.write a v).wf := by
  refine ⟨?_, fun c hc => ?_⟩
  · induction m with
    | nil => unfold Memory.write Memory.cell; split <;> simp
    | cons c m ih =>
      obtain ⟨k, w⟩ := c
      have hk := Memory.head_lt h
      unfold Memory.write
      split
      · rename_i hlt
        refine Memory.pairwise_cell_append h.1 fun c hc => ?_
        rcases List.mem_cons.1 hc with rfl | hc
        · exact hlt
        · exact Nat.lt_trans hlt (hk c hc)
      · split
        · rename_i _ heq
          subst heq
          exact Memory.pairwise_cell_append (Memory.wf_tail h).1 hk
        · refine List.pairwise_cons.2 ⟨fun c hc => ?_, ih (Memory.wf_tail h)⟩
          rcases Memory.mem_write hc with ⟨rfl, _⟩ | hc
          · show k < a; omega
          · exact hk c hc
  · rcases Memory.mem_write hc with ⟨rfl, hv⟩ | hc
    · exact hv
    · exact h.2 c hc

/-- A write below the bound keeps the bound. -/
theorem Memory.write_within {cap : Nat} {m : Memory} (h : m.within cap) {a : Nat} (ha : a < cap) (v : Byte) :
    (m.write a v).within cap := by
  intro c hc
  rcases Memory.mem_write hc with ⟨rfl, _⟩ | hc
  · exact ha
  · exact h c hc

theorem Memory.head_ne_of_read {k : Nat} {w : Byte} {m : Memory} (h : Memory.wf ((k, w) :: m)) :
    Memory.read ((k, w) :: m) k ≠ 0 := by
  rw [Memory.read_cons, if_pos rfl]; exact h.2 (k, w) (by simp)

/-- Equal memories are equal data: two canonical buffers that read alike are the same list. -/
theorem Memory.eq_of_read {m n : Memory} (hm : m.wf) (hn : n.wf) (h : ∀ a, m.read a = n.read a) : m = n := by
  induction m generalizing n with
  | nil =>
    cases n with
    | nil => rfl
    | cons c n => exact absurd (h c.1).symm (Memory.head_ne_of_read hn)
  | cons c m ih =>
    obtain ⟨k, w⟩ := c
    cases n with
    | nil => exact absurd (h k) (Memory.head_ne_of_read hm)
    | cons d n =>
      obtain ⟨l, x⟩ := d
      have hkm := Memory.head_lt hm
      have hln := Memory.head_lt hn
      have below : ∀ {j : Nat} {p : Memory}, (∀ c ∈ p, j < c.1) → p.read j = 0 := fun hp =>
        Memory.read_of_absent fun c hc => Nat.ne_of_gt (hp c hc)
      have hkl : k = l := by
        rcases Nat.lt_trichotomy k l with hlt | heq | hgt
        · refine absurd (h k) ?_
          rw [Memory.read_cons l, if_neg (by omega), below fun c hc => Nat.lt_trans hlt (hln c hc)]
          exact Memory.head_ne_of_read hm
        · exact heq
        · refine absurd (h l).symm ?_
          rw [Memory.read_cons k, if_neg (by omega), below fun c hc => Nat.lt_trans hgt (hkm c hc)]
          exact Memory.head_ne_of_read hn
      subst hkl
      have hw : w = x := by simpa [Memory.read_cons] using h k
      subst hw
      rw [ih (Memory.wf_tail hm) (Memory.wf_tail hn) fun a => ?_]
      by_cases ha : k = a
      · subst ha; rw [below hkm, below hln]
      · simpa [Memory.read_cons, ha] using h a

/-! ## Accesses in a buffer of `cap` bytes -/

theorem memRead_ok {cap : Nat} {m : Memory} {a : Nat} (h : a < cap) : memRead cap m a = .ok (m.read a) := if_pos h

theorem memWrite_ok {cap : Nat} {m : Memory} {a : Nat} (h : a < cap) (v : Byte) :
    memWrite cap m a v = .ok (m.write a v) := if_pos h

/-- Everything a run of writes inside the bound does. -/
theorem memWriteAll_spec {cap : Nat} (bs : Bytes) {m : Memory} {a : Nat} (hm : m.wf) (hi : m.within cap)
    (h : a + bs.length ≤ cap) :
    ∃ n, memWriteAll cap m a bs = .ok n ∧ n.wf ∧ n.within cap ∧
      ∀ b, n.read b = if a ≤ b ∧ b < a + bs.length then bs.getD (b - a) 0 else m.read b := by
  induction bs generalizing m a with
  | nil => exact ⟨m, rfl, hm, hi, fun b => by rw [if_neg (by simp only [List.length_nil]; omega)]⟩
  | cons v bs ih =>
    simp only [List.length_cons] at h
    have ha : a < cap := by omega
    obtain ⟨n, hn, hwf, hin, hr⟩ := ih (m := m.write a v) (a := a + 1) (Memory.write_wf hm a v)
      (Memory.write_within hi ha v) (by omega)
    refine ⟨n, ?_, hwf, hin, fun b => ?_⟩
    · simp only [memWriteAll, memWrite_ok ha, hn]
    · rw [hr b, Memory.read_write hm]
      by_cases hb : b = a
      · subst hb; simp
      · by_cases hc : a + 1 ≤ b ∧ b < a + 1 + bs.length
        · rw [if_pos hc, if_pos (by simp only [List.length_cons]; omega)]
          obtain ⟨d, hd⟩ : ∃ d, b - a = d + 1 := ⟨b - (a + 1), by omega⟩
          rw [hd, List.getD_cons_succ, show b - (a + 1) = d by omega]
        · rw [if_neg hc, if_neg hb, if_neg (by simp only [List.length_cons]; omega)]

/-- A run of reads inside the bound. -/
theorem memReadAll_spec {cap : Nat} {m : Memory} (n a : Nat) (h : a + n ≤ cap) :
    memReadAll cap m a n = .ok ((List.range' a n).map m.read) := by
  induction n generalizing a with
  | zero => rfl
  | succ n ih =>
    simp only [memReadAll, memRead_ok (show a < cap by omega), ih (a + 1) (by omega)]
    simp [List.range'_succ]

/-- A run of reads that answers gives the bytes in index order. -/
theorem memReadAll_eq {cap : Nat} {m : Memory} {n a : Nat} {bs : Bytes} (h : memReadAll cap m a n = .ok bs) :
    bs = (List.range' a n).map m.read := by
  induction n generalizing a bs with
  | zero => simpa [memReadAll] using h.symm
  | succ n ih =>
    simp only [memReadAll] at h
    split at h
    · cases h
    · rename_i b hb
      have hb : b = m.read a := by
        unfold memRead at hb; split at hb <;> cases hb; rfl
      split at h
      · rename_i cs hcs
        cases h
        rw [ih hcs, hb]
        simp [List.range'_succ]
      · cases h

/-- Whether a run of writes lands does not depend on the buffer's bytes. -/
theorem memWriteAll_ok_iff {cap : Nat} (bs : Bytes) (m : Memory) (a : Nat) :
    (∃ n, memWriteAll cap m a bs = .ok n) ↔ bs = [] ∨ a + bs.length ≤ cap := by
  induction bs generalizing m a with
  | nil => simp [memWriteAll]
  | cons b bs ih =>
    by_cases ha : a < cap
    · rw [memWriteAll, memWrite_ok ha]
      simp only []
      rw [ih]
      cases bs <;> simp <;> omega
    · rw [memWriteAll, memWrite, if_neg ha]
      simp; omega

/-- A run of reads that answers stays inside the bound. -/
theorem memReadAll_inside {cap : Nat} {m : Memory} {n a : Nat} {bs : Bytes} (h : memReadAll cap m a n = .ok bs) :
    n = 0 ∨ a + n ≤ cap := by
  induction n generalizing a bs with
  | zero => exact .inl rfl
  | succ n ih =>
    right
    rw [memReadAll] at h
    split at h
    · cases h
    · rename_i hb
      unfold memRead at hb
      split at hb
      · split at h
        · rename_i h2; rcases ih h2 with h3 | h3 <;> omega
        · cases h
      · cases hb

end Sys2Proof.Machine
end

