-- ==== Sys2Proof/Laws/Reassembler.lean ====
section
/-! SUPPORT. What the reassembler's helpers and transition rules do, one lemma each, and everything an operation can do to the
machine when it answers a next state. -/

namespace Sys2Proof.Machine

open Sys2Proof

/-! ## Storing and checking (R113, R122) -/

theorem needed_le_length (ra : ReassemblyState) (c : Bytes) : needed ra c ≤ c.length := Nat.min_le_left _ _

theorem needed_le_rest (ra : ReassemblyState) (c : Bytes) :
    needed ra c ≤ ra.expectedLength.toNat - ra.receivedLength.toNat := Nat.min_le_right _ _

theorem length_take_needed (ra : ReassemblyState) (c : Bytes) : (c.take (needed ra c)).length = needed ra c := by
  rw [List.length_take]; exact Nat.min_eq_left (needed_le_length ra c)

/-- `receivedLength` after the addition of R113, which does not wrap (R125). -/
theorem receivedLength_add {ra : ReassemblyState} (h : ra.receivedLength.toNat ≤ ra.expectedLength.toNat) (c : Bytes) :
    (ra.receivedLength + BitVec.ofNat 16 (needed ra c)).toNat = ra.receivedLength.toNat + needed ra c := by
  have h1 := needed_le_rest ra c
  have h2 := ra.expectedLength.isLt
  rw [BitVec.toNat_add, BitVec.toNat_ofNat]
  omega

/-- Everything `StoreChunk` does within the invariants (R113). -/
theorem storeChunk_spec {cfg : Config} {ra : ReassemblyState} (c : Bytes)
    (hfits : ra.expectedLength.toNat ≤ cfg.capacity.toNat) (hle : ra.receivedLength.toNat ≤ ra.expectedLength.toNat)
    (hb : ra.buffer.Ok cfg) :
    ∃ m : Memory, storeChunk cfg c ra =
        .ok { ra with buffer := m, receivedLength := ra.receivedLength + BitVec.ofNat 16 (needed ra c) } ∧
      m.Ok cfg ∧
      ∀ a, m.read a =
        if ra.receivedLength.toNat ≤ a ∧ a < ra.receivedLength.toNat + needed ra c then
          c.getD (a - ra.receivedLength.toNat) 0
        else ra.buffer.read a := by
  have h1 := needed_le_rest ra c
  obtain ⟨m, hm, hwf, hin, hr⟩ := memWriteAll_spec (cap := capacityOf cfg) (c.take (needed ra c))
    (a := ra.receivedLength.toNat) hb.canonical hb.inside (by rw [length_take_needed]; simp only [capacityOf]; omega)
  refine ⟨m, by rw [storeChunk, hm], ⟨hwf, hin⟩, fun a => ?_⟩
  rw [hr a, length_take_needed]
  by_cases ha : ra.receivedLength.toNat ≤ a ∧ a < ra.receivedLength.toNat + needed ra c
  · rw [if_pos ha, if_pos ha]
    simp only [List.getD_eq_getElem?_getD, List.getElem?_take]
    rw [if_pos (by omega)]
  · rw [if_neg ha, if_neg ha]

/-- `CheckComplete` on an unfinished message. -/
theorem checkComplete_still {cfg : Config} {ra : ReassemblyState}
    (h : ra.receivedLength.toNat < ra.expectedLength.toNat) : checkComplete cfg ra = .ok (ra, .stillAssembling) := by
  rw [checkComplete, if_neg (by omega)]; rfl

/-- `CheckComplete` on a whole message. -/
theorem checkComplete_whole {cfg : Config} {ra : ReassemblyState}
    (hfits : ra.expectedLength.toNat ≤ cfg.capacity.toNat) (h : ra.expectedLength.toNat ≤ ra.receivedLength.toNat) :
    checkComplete cfg ra =
      .ok (returnToIdle ra, .complete ((List.range' 0 ra.expectedLength.toNat).map ra.buffer.read)) := by
  rw [checkComplete, if_pos h, memReadAll_spec _ _ (by simp only [capacityOf]; omega)]

/-- The end of R114 and of R116 when the chunk does not finish the message. -/
theorem storeAndCheck_still {cfg : Config} {ra : ReassemblyState} {c : Bytes}
    (hfits : ra.expectedLength.toNat ≤ cfg.capacity.toNat) (hb : ra.buffer.Ok cfg)
    (h : ra.receivedLength.toNat + c.length < ra.expectedLength.toNat) :
    ∃ m : Memory, storeAndCheck cfg c ra =
        .ok ({ ra with buffer := m, receivedLength := ra.receivedLength + BitVec.ofNat 16 c.length }, .stillAssembling) ∧
      m.Ok cfg ∧
      ∀ a, m.read a =
        if ra.receivedLength.toNat ≤ a ∧ a < ra.receivedLength.toNat + c.length then
          c.getD (a - ra.receivedLength.toNat) 0
        else ra.buffer.read a := by
  have hn : needed ra c = c.length := by unfold needed; omega
  obtain ⟨m, hm, hok, hr⟩ := storeChunk_spec c hfits (by omega) hb
  have hadd := receivedLength_add (ra := ra) (by omega) c
  rw [hn] at hm hr hadd
  refine ⟨m, ?_, hok, hr⟩
  rw [storeAndCheck, hm]
  exact checkComplete_still (by show (ra.receivedLength + _).toNat < ra.expectedLength.toNat; omega)

/-- The end of R114 and of R116 when the chunk finishes the message: the bytes beyond what it needs are dropped. -/
theorem storeAndCheck_whole {cfg : Config} {ra : ReassemblyState} {c : Bytes}
    (hfits : ra.expectedLength.toNat ≤ cfg.capacity.toNat) (hle : ra.receivedLength.toNat ≤ ra.expectedLength.toNat)
    (hb : ra.buffer.Ok cfg) (h : ra.expectedLength.toNat ≤ ra.receivedLength.toNat + c.length) :
    ∃ m : Memory, storeAndCheck cfg c ra =
        .ok (returnToIdle { ra with buffer := m },
          .complete ((List.range' 0 ra.receivedLength.toNat).map ra.buffer.read ++
            c.take (ra.expectedLength.toNat - ra.receivedLength.toNat))) ∧
      m.Ok cfg ∧
      ∀ a, m.read a =
        if ra.receivedLength.toNat ≤ a ∧ a < ra.expectedLength.toNat then c.getD (a - ra.receivedLength.toNat) 0
        else ra.buffer.read a := by
  have hn : needed ra c = ra.expectedLength.toNat - ra.receivedLength.toNat := by unfold needed; omega
  obtain ⟨m, hm, hok, hr⟩ := storeChunk_spec c hfits hle hb
  have hadd := receivedLength_add (ra := ra) hle c
  have hE : ra.receivedLength.toNat + needed ra c = ra.expectedLength.toNat := by omega
  rw [hE] at hr
  refine ⟨m, ?_, hok, hr⟩
  have hcc := checkComplete_whole (cfg := cfg)
    (ra := { ra with buffer := m, receivedLength := ra.receivedLength + BitVec.ofNat 16 (needed ra c) }) hfits
    (by show ra.expectedLength.toNat ≤ (ra.receivedLength + _).toNat; omega)
  rw [storeAndCheck, hm]
  refine hcc.trans ?_
  show Except.ok (returnToIdle { ra with buffer := m }, _) = _
  congr 3
  show List.map m.read (List.range' 0 ra.expectedLength.toNat) = _
  apply List.ext_getElem?
  intro i
  rw [List.getElem?_append]
  simp only [List.getElem?_map, List.length_map, List.length_range', List.getElem?_take]
  by_cases h1 : i < ra.receivedLength.toNat
  · rw [if_pos h1]
    simp [h1, show i < ra.expectedLength.toNat by omega, hr i, show ¬ ra.receivedLength.toNat ≤ i by omega]
  · rw [if_neg h1]
    by_cases h2 : i < ra.expectedLength.toNat
    · have h3 : i - ra.receivedLength.toNat < c.length := by omega
      have h4 : i - ra.receivedLength.toNat < ra.expectedLength.toNat - ra.receivedLength.toNat := by omega
      simp [h2, h3, h4, hr i, show ra.receivedLength.toNat ≤ i by omega]
    · have h4 : ¬ i - ra.receivedLength.toNat < ra.expectedLength.toNat - ra.receivedLength.toNat := by omega
      simp [h2, h4]

/-! ## The invariant -/

theorem idle_inv (cfg : Config) (ra : ReassemblyState) : (returnToIdle ra).Inv cfg :=
  ⟨by simp, by simp, fun _ => by simp, fun h => by simp at h⟩

/-- What a step of the reassembler keeps: it answers, and the scalars and the buffer stay well formed. -/
def RaResult.Good (cfg : Config) (r : RaResult) : Prop :=
  ∃ ra e, r = .ok (ra, e) ∧ ra.Inv cfg ∧ ra.buffer.Ok cfg

theorem raiseAborted_good {cfg : Config} {ra : ReassemblyState} (e : ReassemblyError) (hb : ra.buffer.Ok cfg) :
    RaResult.Good cfg (raiseAborted e ra) := ⟨_, _, rfl, idle_inv cfg ra, hb⟩

theorem storeAndCheck_good {cfg : Config} {ra : ReassemblyState} (c : Bytes)
    (hfits : ra.expectedLength.toNat ≤ cfg.capacity.toNat) (hle : ra.receivedLength.toNat ≤ ra.expectedLength.toNat)
    (has : ra.assembling = true) (hb : ra.buffer.Ok cfg) : RaResult.Good cfg (storeAndCheck cfg c ra) := by
  by_cases h : ra.expectedLength.toNat ≤ ra.receivedLength.toNat + c.length
  · obtain ⟨m, hm, hok, -⟩ := storeAndCheck_whole hfits hle hb h
    exact ⟨_, _, hm, idle_inv cfg _, hok⟩
  · have hlt : ra.receivedLength.toNat + c.length < ra.expectedLength.toNat := by omega
    obtain ⟨m, hm, hok, -⟩ := storeAndCheck_still hfits hb hlt
    have hadd : (ra.receivedLength + BitVec.ofNat 16 c.length).toNat = ra.receivedLength.toNat + c.length := by
      have := ra.expectedLength.isLt
      rw [BitVec.toNat_add, BitVec.toNat_ofNat]; omega
    refine ⟨_, _, hm, ⟨hfits, ?_, fun h => ?_, fun _ => ?_⟩, hok⟩
    · show (ra.receivedLength + BitVec.ofNat 16 c.length).toNat ≤ ra.expectedLength.toNat; omega
    · exact absurd has (by rw [show ra.assembling = false from h]; simp)
    · show (ra.receivedLength + BitVec.ofNat 16 c.length).toNat < ra.expectedLength.toNat; omega

theorem raStart_good {cfg : Config} {ra : ReassemblyState} (L : U16) (c : Bytes) (hb : ra.buffer.Ok cfg) :
    RaResult.Good cfg (raStart L c cfg ra) := by
  unfold raStart
  split
  · exact raiseAborted_good _ hb
  · rename_i h
    exact storeAndCheck_good c (Nat.le_of_not_lt h) (by show (0 : U16).toNat ≤ _; simp) rfl hb

theorem raCont_good {cfg : Config} {ra : ReassemblyState} (q : Byte) (c : Bytes) (hi : ra.Inv cfg)
    (hb : ra.buffer.Ok cfg) : RaResult.Good cfg (raCont q c cfg ra) := by
  unfold raCont
  split
  · exact raiseAborted_good _ hb
  · rename_i has
    split
    · exact raiseAborted_good _ hb
    · exact storeAndCheck_good c hi.fits hi.bounded (by simpa using has) hb

theorem raStep_good {cfg : Config} {ra : ReassemblyState} (k : FrameKind) (hi : ra.Inv cfg) (hb : ra.buffer.Ok cfg) :
    RaResult.Good cfg (raStep k cfg ra) := by
  match k with
  | .unknown => exact ⟨_, _, rfl, hi, hb⟩
  | .malformed .start => exact raiseAborted_good _ hb
  | .malformed .continuation => exact raiseAborted_good _ hb
  | .start L c => exact raStart_good L c hb
  | .continuation q c => exact raCont_good q c hi hb

theorem rxStep_good {cfg : Config} {ra : ReassemblyState} (f : Frame) (hi : ra.Inv cfg) (hb : ra.buffer.Ok cfg) :
    RaResult.Good cfg (rxStep f cfg ra) := by
  unfold rxStep
  split
  · exact raStep_good _ hi hb
  · exact ⟨_, _, rfl, hi, hb⟩

/-! ## What an operation can do -/

/-- The wire instruction of a frame carries the frame's bytes, every one of them. -/
theorem wireData_wireInstr (d : Bytes) : wireData (wireInstr d) = some d := by
  rcases frameData_cases d with rfl | ⟨t, ht, rfl⟩ | ⟨lo, hi, p, c, rfl⟩ | rfl | ⟨q, c, rfl⟩ | ⟨b, t, ha, hc, rfl⟩
  · rfl
  · rw [wireInstr_shortStart ht]; rfl
  · rw [wireInstr_start]; simp [wireData, startData, loByte_joinBytes, hiByte_joinBytes]
  · rfl
  · rw [wireInstr_cont]; rfl
  · rw [wireInstr_other ha hc]; rfl

/-- A wire instruction gives the reassembler the frame it carries. -/
theorem exec_of_wireData {i : Instr} {d : Bytes} (h : wireData i = some d) (s : State) : exec i s = wireFrame d s := by
  cases i <;> cases h <;> rfl

theorem exec_wireInstr (d : Bytes) (s : State) : exec (wireInstr d) s = wireFrame d s :=
  exec_of_wireData (wireData_wireInstr d) s

theorem wireFrame_fits {d : Bytes} (h : d.length ≤ 8) (s : State) : wireFrame d s = receive (raStep (decodeKind d)) s :=
  withFrame_fits h _

theorem wireFrame_reserved {d : Bytes} (h : 8 < d.length) (s : State) : wireFrame d s = .refused .reservedFrameLength :=
  withFrame_reserved h _

theorem wireFrame_next {d : Bytes} {s t : State} (h : wireFrame d s = .next t) :
    d.length ≤ 8 ∧ receive (raStep (decodeKind d)) s = .next t := withFrame_next h

/-- Each row of wire frames, at the lengths it has, runs its rule of R123. -/
theorem exec_start {c : Bytes} (h : c.length ≤ 4) (L : U16) (p : Byte) (s : State) :
    exec (.start L p c) s = receive (raStart L c) s := by
  rw [exec_of_wireData (d := startData L p c) rfl, wireFrame_fits (by simp; omega), decodeKind_startData]; rfl

theorem exec_cont {c : Bytes} (h : c.length ≤ 6) (q : Byte) (s : State) :
    exec (.cont q c) s = receive (raCont q c) s := by
  rw [exec_of_wireData (d := contData q c) rfl, wireFrame_fits (by simp; omega), decodeKind_contData]; rfl

theorem exec_malformedStart {tail : Bytes} (h : tail.length < 3) (s : State) :
    exec (.malformedStart tail) s = receive (fun _ ra => malformedStartFrame ra) s := by
  rw [exec_of_wireData (d := 0xAA#8 :: tail) rfl, wireFrame_fits (by simp; omega), decodeKind_shortStart h]; rfl

theorem exec_malformedCont (s : State) : exec .malformedCont s = receive (fun _ ra => malformedContFrame ra) s := rfl

theorem exec_unknown {d : Bytes} (h : d.length ≤ 8) (hd : decodeKind d = .unknown) (s : State) :
    exec (.unknown d) s = receive (fun _ ra => unknownFrame ra) s := by
  rw [exec_of_wireData (d := d) rfl, wireFrame_fits h, hd]; rfl

/-- `SEND_MSG` changes the outcome only. -/
theorem execSendMsg_next {dest : Nat} {msg : Bytes} {s t : State} (h : execSendMsg dest msg s = .next t) :
    ∃ r, t = s.respond r := by
  unfold execSendMsg at h
  repeat' split at h
  all_goals cases h
  all_goals exact ⟨_, rfl⟩

/-- Everything an operation can do to the machine when it answers a next state: run one step of the reassembler on a frame (with
the polling loop's own updates of its two queues), reset it, or leave ReassemblyState alone. -/
theorem exec_next {i : Instr} {s t : State} (h : exec i s = .next t) :
    (s.resetDone = true ∧ ∃ (f : Config → ReassemblyState → RaResult) (ra : ReassemblyState) (e : Event),
        f s.cfg s.ra = .ok (ra, e) ∧
        ((∃ k, f = raStep k) ∨ (∃ g, f = rxStep g)) ∧
        t = { s with ra := ra, response := some (.event e), linkRx := t.linkRx, requests := t.requests }) ∨
      (i = .reset ∧ t = { s with ra := ReassemblyState.reset, resetDone := true, response := none }) ∨
      t = { s with response := t.response, requests := t.requests } := by
  have wire : ∀ {f : Config → ReassemblyState → RaResult} {u : State},
      receive f u = .next t → u.cfg = s.cfg → u.ra = s.ra → u.resetDone = s.resetDone →
      ((∃ k, f = raStep k) ∨ (∃ g, f = rxStep g)) →
      s.resetDone = true ∧ ∃ (f : Config → ReassemblyState → RaResult) (ra : ReassemblyState) (e : Event),
        f s.cfg s.ra = .ok (ra, e) ∧ ((∃ k, f = raStep k) ∨ (∃ g, f = rxStep g)) ∧
        t = { s with ra := ra, response := some (.event e), linkRx := t.linkRx, requests := t.requests } := by
    intro f u hu h1 h2 h3 hf
    obtain ⟨hl, ra, e, hok, rfl⟩ := receive_next hu
    refine ⟨by rw [← h3, hl], f, ra, e, by rw [← h1, ← h2, hok], hf, ?_⟩
    cases u; cases s; simp_all
  cases i with
  | start L p c => exact .inl (wire (wireFrame_next h).2 rfl rfl rfl (.inl ⟨_, rfl⟩))
  | cont q c => exact .inl (wire (wireFrame_next h).2 rfl rfl rfl (.inl ⟨_, rfl⟩))
  | malformedStart tail => exact .inl (wire (wireFrame_next h).2 rfl rfl rfl (.inl ⟨_, rfl⟩))
  | malformedCont => exact .inl (wire (wireFrame_next (d := [lit.contMagic]) h).2 rfl rfl rfl (.inl ⟨_, rfl⟩))
  | unknown d => exact .inl (wire (wireFrame_next h).2 rfl rfl rfl (.inl ⟨_, rfl⟩))
  | encStart d L c => obtain ⟨f, -, rfl⟩ := respondFrame_next h; exact .inr (.inr rfl)
  | encCont d q c => obtain ⟨f, -, rfl⟩ := respondFrame_next h; exact .inr (.inr rfl)
  | decodeFrame d => obtain ⟨-, h⟩ := withFrame_next h; cases h; exact .inr (.inr rfl)
  | rxFrame f => exact .inl (wire (withFrame_next h).2 rfl rfl rfl (.inr ⟨_, rfl⟩))
  | reset => cases h; exact .inr (.inl ⟨rfl, rfl⟩)
  | reservedOp op => cases h
  | sendMsg d msg =>
    obtain ⟨r, rfl⟩ := execSendMsg_next h
    exact .inr (.inr rfl)
  | recvPoll =>
    have h' : execRecvPoll s = .next t := h
    unfold execRecvPoll at h'
    split at h'
    · cases h'; exact .inr (.inr rfl)
    · exact .inl (wire (withFrame_next h').2 rfl rfl rfl (.inr ⟨_, rfl⟩))

/-! ## Taking the next operation -/

theorem fetch_idle {s : State} (hl : s.cfg.legal) (h : s.requests = []) : fetch s = .idle := by
  rw [fetch, if_pos hl, h]

theorem fetch_issue {s : State} {i : Instr} {rest : List Instr} (hl : s.cfg.legal) (h : s.requests = i :: rest) :
    fetch s = .issue i { s with requests := rest } := by
  rw [fetch, if_pos hl, h]

theorem fetch_illegal {s : State} (h : ¬ s.cfg.legal) : fetch s = .refuse .illegalConfiguration := by
  rw [fetch, if_neg h]

/-- Everything a step can do when it answers a next state: nothing, when the host issues no operation, or the next operation. -/
theorem step_next {s t : State} (h : step s = .next t) :
    s.cfg.legal ∧ ((s.requests = [] ∧ t = s) ∨
      ∃ i rest, s.requests = i :: rest ∧ exec i { s with requests := rest } = .next t) := by
  by_cases hl : s.cfg.legal
  · refine ⟨hl, ?_⟩
    cases hr : s.requests with
    | nil => rw [step, fetch_idle hl hr] at h; cases h; exact .inl ⟨rfl, rfl⟩
    | cons i rest => rw [step, fetch_issue hl hr] at h; exact .inr ⟨i, rest, rfl, h⟩
  · rw [step, fetch_illegal hl] at h; cases h

/-- `withFetchWord` leaves the instruction of the word as the one operation to come. -/
theorem withFetchWord_of_decodes {nbits w : Nat} {i : Instr} (h : decodeTableWord nbits w = some i) (s : State) :
    s.withFetchWord nbits w = { s with requests := [i] } := by rw [State.withFetchWord, placeTableWord, h]

end Sys2Proof.Machine
end

