-- ==== Sys2Proof/Laws/Frames.lean ====
section
/-! SUPPORT. What the operand forms do (the identifier, the padding, the encoder's frame, the filter), what a step of the reassembler
answers, and runs of received frames, said once each. -/

namespace Sys2Proof.Machine

open Sys2Proof

/-! ## The encoder (R90 to R94) -/

theorem extractLsb_low (v : U16) : v.extractLsb' 0 8 = loByte v := by
  apply BitVec.eq_of_toNat_eq; simp [loByte]

theorem extractLsb_high (v : U16) : v.extractLsb' 8 8 = hiByte v := by
  apply BitVec.eq_of_toNat_eq; simp [hiByte]

theorem idOf_toNat (d : Dest) : (idOf d).toNat = 0x200 + d.toNat := by
  have := d.isLt
  simp only [idOf, lit_idBase, BitVec.toNat_ofNat, lit_idWidth]
  omega

theorem legal_iff (d : Dest) : Dest.legal d ↔ 1 ≤ d.toNat ∧ d.toNat ≤ 5 := Iff.rfl

theorem pad_eq_paddedTo8 (cfg : Config) (d : Bytes) : pad cfg d = paddedTo8 cfg d := rfl

/-- `paddedTo8` with `FRAME_MAX` at its value. -/
theorem paddedTo8_eq (cfg : Config) (d : Bytes) :
    paddedTo8 cfg d = if cfg.padEnable = true then d ++ List.replicate (8 - d.length) cfg.padByte else d := rfl

/-- `isFor` with `ID_BASE` at its value. -/
theorem isFor_iff (cfg : Config) (f : Frame) : isFor cfg f ↔ f.id.toNat = 0x200 + cfg.selfId.toNat := Iff.rfl

/-- Everything the last lines of R90 and R91 can do: the chunk's length decides first, then the destination. -/
theorem buildFrame_cases (cfg : Config) (dest : Dest) (n : Nat) (chunk d : Bytes) :
    (n < chunk.length ∧ buildFrame cfg dest n chunk d = .error .encChunkTooLong) ∨
    (chunk.length ≤ n ∧ ¬ Dest.legal dest ∧ buildFrame cfg dest n chunk d = .error .encBadDest) ∨
    (chunk.length ≤ n ∧ Dest.legal dest ∧ buildFrame cfg dest n chunk d = .ok ⟨idOf dest, paddedTo8 cfg d⟩) := by
  by_cases hc : n < chunk.length
  · exact .inl ⟨hc, if_pos hc⟩
  · by_cases hd : Dest.legal dest
    · exact .inr (.inr ⟨by omega, hd, by rw [buildFrame, if_neg hc, makeId, if_pos hd, pad_eq_paddedTo8]⟩)
    · exact .inr (.inl ⟨by omega, hd, by rw [buildFrame, if_neg hc, makeId, if_neg hd]⟩)

theorem encodeStart_ok {cfg : Config} {dest : Dest} (totalLength : U16) {chunk : Bytes} (hd : Dest.legal dest)
    (hc : chunk.length ≤ 4) :
    encodeStart cfg dest totalLength chunk = .ok ⟨idOf dest, paddedTo8 cfg (startData totalLength 0 chunk)⟩ := by
  rw [encodeStart, buildFrame, if_neg (by simp only [lit_startChunkMax]; omega), makeId, if_pos hd]; rfl

theorem encodeCont_ok {cfg : Config} {dest : Dest} (seq : Byte) {chunk : Bytes} (hd : Dest.legal dest)
    (hc : chunk.length ≤ 6) :
    encodeCont cfg dest seq chunk = .ok ⟨idOf dest, paddedTo8 cfg (contData seq chunk)⟩ := by
  rw [encodeCont, buildFrame, if_neg (by simp only [lit_contChunkMax]; omega), makeId, if_pos hd]; rfl

theorem length_paddedTo8 (cfg : Config) {d : Bytes} (h : d.length ≤ 8) : (paddedTo8 cfg d).length ≤ 8 := by
  rw [paddedTo8_eq]
  split
  · rw [List.length_append, List.length_replicate]; omega
  · exact h

/-- A padded chunk still fits its frame. -/
theorem length_append_padTail (cfg : Config) {most : Nat} {c : Bytes} (h : c.length ≤ most) :
    (c ++ padTail cfg most c.length).length ≤ most := by
  unfold padTail
  split
  · rw [List.length_append, List.length_replicate]; omega
  · rwa [List.append_nil]

/-- The padded data of a start frame is the data of the start frame with the pad bytes in its chunk (R104). -/
theorem paddedTo8_startData (cfg : Config) (totalLength : U16) (p : Byte) (chunk : Bytes) :
    paddedTo8 cfg (startData totalLength p chunk) = startData totalLength p (chunk ++ padTail cfg 4 chunk.length) := by
  rw [paddedTo8_eq]; unfold padTail
  split
  · have : 8 - (startData totalLength p chunk).length = 4 - chunk.length := by simp [startData]
    rw [this]; simp [startData]
  · simp

/-- The same for a continuation frame. -/
theorem paddedTo8_contData (cfg : Config) (seq : Byte) (chunk : Bytes) :
    paddedTo8 cfg (contData seq chunk) = contData seq (chunk ++ padTail cfg 6 chunk.length) := by
  rw [paddedTo8_eq]; unfold padTail
  split
  · have : 8 - (contData seq chunk).length = 6 - chunk.length := by simp [contData]
    rw [this]; simp [contData]
  · simp

/-- The loop of `SEND_MSG` answers frames whenever the destination is legal. -/
theorem sendRest_ok {cfg : Config} {dest : Dest} (hd : Dest.legal dest) (n : Nat) (rest : Bytes) (q : Byte) :
    ∃ fs, sendRest cfg dest n rest q = .ok fs := by
  induction n generalizing rest q with
  | zero => exact ⟨[], rfl⟩
  | succ n ih =>
    cases rest with
    | nil => exact ⟨[], rfl⟩
    | cons b bs =>
      obtain ⟨fs, hfs⟩ := ih ((b :: bs).drop lit.contChunkMax) (q + 1)
      exact ⟨_, by rw [sendRest, encodeCont_ok q hd (by simp), hfs]⟩

/-- A legal destination id fits the encoder's 3-bit destination. -/
theorem toNat_ofNat_dest {n : Nat} (h : legalDestination n) : (BitVec.ofNat 3 n).toNat = n := by
  have : n ≤ 5 := h.2
  rw [BitVec.toNat_ofNat]; omega

theorem legal_ofNat {n : Nat} (h : legalDestination n) : Dest.legal (BitVec.ofNat 3 n) := by
  show legalDestination (BitVec.ofNat 3 n).toNat
  rwa [toNat_ofNat_dest h]

/-- The expansion of `SEND_MSG` answers frames whenever the destination is legal. -/
theorem sendFrames_answers (cfg : Config) {dest : Dest} (hd : Dest.legal dest) (msg : Bytes) :
    ∃ fs, sendFrames cfg dest msg = .ok fs := by
  obtain ⟨fs, hfs⟩ := sendRest_ok (cfg := cfg) hd msg.length (msg.drop lit.startChunkMax) 1
  exact ⟨_, by rw [sendFrames, encodeStart_ok _ hd (by simp), hfs]⟩

/-- Everything `SEND_MSG` can do: one of its two rejections, or its frames; and it changes the outcome only. -/
theorem execSendMsg_cases (dest : Nat) (msg : Bytes) (s : State) :
    (¬ legalDestination dest ∧ execSendMsg dest msg s = .next (s.respond (.sendRejected .invalidTarget))) ∨
    (legalDestination dest ∧ lit.msgLenMax < msg.length ∧
      execSendMsg dest msg s = .next (s.respond (.sendRejected .messageTooLong))) ∨
    (legalDestination dest ∧ msg.length ≤ lit.msgLenMax ∧ ∃ fs,
      sendFrames s.cfg (BitVec.ofNat 3 dest) msg = .ok fs ∧
      execSendMsg dest msg s = .next (s.respond (.frames fs))) := by
  by_cases hd : legalDestination dest
  · by_cases hm : lit.msgLenMax < msg.length
    · exact .inr (.inl ⟨hd, hm, by rw [execSendMsg, if_neg (fun h => h hd), if_pos hm]⟩)
    · obtain ⟨fs, hfs⟩ := sendFrames_answers s.cfg (legal_ofNat hd) msg
      exact .inr (.inr ⟨hd, by omega, fs, hfs, by rw [execSendMsg, if_neg (fun h => h hd), if_neg hm, hfs]⟩)
  · exact .inl ⟨hd, by rw [execSendMsg, if_pos hd]⟩

/-! ## The filter (R111) -/

theorem addressed_iff_isFor (cfg : Config) (f : Frame) : addressed cfg f ↔ isFor cfg f := by
  unfold addressed
  rw [isFor_iff, ← idOf_toNat]
  exact BitVec.toNat_inj.symm

theorem rxStep_isFor {cfg : Config} {f : Frame} (h : isFor cfg f) (ra : ReassemblyState) :
    rxStep f cfg ra = raStep (decodeKind f.data) cfg ra := if_pos ((addressed_iff_isFor cfg f).2 h)

theorem rxStep_not_isFor {cfg : Config} {f : Frame} (h : ¬ isFor cfg f) (ra : ReassemblyState) :
    rxStep f cfg ra = .ok (ra, .filtered) := if_neg fun h' => h ((addressed_iff_isFor cfg f).1 h')

/-! ## What a step of the reassembler answers -/

/-- What storing and checking answer: unfinished, with the other scalars as before, or complete and `Idle`. -/
theorem storeAndCheck_next {cfg : Config} {ra ra' : ReassemblyState} {c : Bytes} {e : Event}
    (h : storeAndCheck cfg c ra = .ok (ra', e)) :
    (e = .stillAssembling ∧ ra'.assembling = ra.assembling ∧ ra'.expectedLength = ra.expectedLength ∧
      ra'.nextSeq = ra.nextSeq) ∨
    ∃ m, e = .complete m ∧ ra'.status = StatusView.idle ∧ m.length = ra.expectedLength.toNat := by
  unfold storeAndCheck storeChunk at h
  split at h
  · rename_i ra1 h1
    split at h1
    · cases h1
      unfold checkComplete at h
      split at h
      · split at h
        · rename_i m hm
          cases h
          exact .inr ⟨m, rfl, rfl, by rw [memReadAll_eq hm]; simp⟩
        · cases h
      · cases h; exact .inl ⟨rfl, rfl, rfl, rfl⟩
    · cases h1
  · cases h

/-- Everything `RA_STEP` can do when it answers: ignore the frame, abort, accept a start frame, accept a continuation frame. -/
theorem raStep_next {k : FrameKind} {cfg : Config} {ra ra' : ReassemblyState} {e : Event}
    (h : raStep k cfg ra = .ok (ra', e)) :
    (e = .ignored ∧ ra' = ra ∧ k = .unknown) ∨
    (∃ r, e = .aborted r ∧ ra' = returnToIdle ra ∧ k ≠ .unknown) ∨
    (∃ L c, k = .start L c ∧ L.toNat ≤ cfg.capacity.toNat ∧ startAccepted L c cfg ra = .ok (ra', e)) ∨
    ∃ q c, k = .continuation q c ∧ ra.assembling = true ∧ q = ra.nextSeq ∧ contAccepted c cfg ra = .ok (ra', e) := by
  have abort : ∀ {r : ReassemblyError}, raiseAborted r ra = .ok (ra', e) → k ≠ .unknown →
      ∃ r, e = .aborted r ∧ ra' = returnToIdle ra ∧ k ≠ .unknown := by
    intro r hr hk; cases hr; exact ⟨r, rfl, rfl, hk⟩
  match k with
  | .unknown => cases h; exact .inl ⟨rfl, rfl, rfl⟩
  | .malformed .start => exact .inr (.inl (abort (r := .malformed) h (by simp)))
  | .malformed .continuation => exact .inr (.inl (abort (r := .malformed) h (by simp)))
  | .start L c =>
    have h' : raStart L c cfg ra = .ok (ra', e) := h
    unfold raStart at h'
    split at h'
    · exact .inr (.inl (abort h' (by simp)))
    · rename_i hc; exact .inr (.inr (.inl ⟨L, c, rfl, Nat.le_of_not_lt hc, h'⟩))
  | .continuation q c =>
    have h' : raCont q c cfg ra = .ok (ra', e) := h
    unfold raCont at h'
    split at h'
    · exact .inr (.inl (abort h' (by simp)))
    · split at h'
      · exact .inr (.inl (abort h' (by simp)))
      · rename_i h1 h2
        exact .inr (.inr (.inr ⟨q, c, rfl, by simpa using h1, by simpa using h2, h'⟩))

/-! ## The Reliable Frame Sender (R177) -/

/-- Attempts answered `Busy` use up the budget and nothing else. -/
theorem sendFrame_busy_run (link : Nat → Option LinkError) (n budget k : Nat)
    (h : ∀ i, i < n → link (k + i) = some .busy) (hn : n ≤ budget) :
    sendFrame link budget k = sendFrame link (budget - n) (k + n) := by
  induction n generalizing budget k with
  | zero => rfl
  | succ n ih =>
    obtain ⟨b, rfl⟩ : ∃ b, budget = b + 1 := ⟨budget - 1, by omega⟩
    rw [sendFrame, show link k = some .busy from h 0 (by omega)]
    simp only
    rw [ih b (k + 1) (fun i hi => by rw [show k + 1 + i = k + (i + 1) by omega]; exact h (i + 1) (by omega))
      (by omega)]
    congr 1 <;> omega

/-! ## Runs of received frames -/

theorem rxAll_nil (s : State) : rxAll s [] = some ([], s) := rfl

theorem rxAll_cons {s t : State} {f : Frame} {e : Event} (h : exec (.rxFrame f) s = .next t)
    (he : t.response = some (.event e)) (fs : List Frame) :
    rxAll s (f :: fs) = (rxAll t fs).map fun p => (e :: p.1, p.2) := by
  simp only [rxAll, h, he]
  cases rxAll t fs <;> rfl

theorem rxAll_cons_some {s t : State} {f : Frame} {fs : List Frame} {es : List Event}
    (h : rxAll s (f :: fs) = some (es, t)) :
    ∃ u e es', exec (.rxFrame f) s = .next u ∧ u.response = some (.event e) ∧ rxAll u fs = some (es', t) ∧
      es = e :: es' := by
  simp only [rxAll] at h
  split at h
  · rename_i u hu
    split at h
    · rename_i e es' v he h2; cases h; exact ⟨u, e, es', hu, he, h2, rfl⟩
    · cases h
  · cases h
  · cases h

end Sys2Proof.Machine
end

