-- ==== Sys2Proof/Laws/PerInstr.lean ====
section
/-! SUPPORT. Statements made for every instruction, one lemma per constructor. -/

namespace Sys2Proof.Laws.SelectorReadsBack

open Sys2Proof

/-- The leading byte of a well-formed instruction's request selects that instruction's operation and nothing else (R76; log 2):
no two selectors share a code, and the reserved codes are taken by no operation. -/
def Statement (i : Instr) : Prop := i.wf = true → Selector.ofByte i.selector.code = some i.selector

theorem start (totalLength : U16) (placeholder : Byte) (chunk : Bytes) : Statement (.start totalLength placeholder chunk) :=
  fun _ => rfl
theorem cont (seq : Byte) (chunk : Bytes) : Statement (.cont seq chunk) := fun _ => rfl
theorem malformedStart (tail : Bytes) : Statement (.malformedStart tail) := fun _ => rfl
theorem malformedCont : Statement .malformedCont := fun _ => rfl
theorem unknown (data : Bytes) : Statement (.unknown data) := fun _ => rfl
theorem encStart (dest : Dest) (totalLength : U16) (chunk : Bytes) : Statement (.encStart dest totalLength chunk) :=
  fun _ => rfl
theorem encCont (dest : Dest) (seq : Byte) (chunk : Bytes) : Statement (.encCont dest seq chunk) := fun _ => rfl
theorem decodeFrame (data : Bytes) : Statement (.decodeFrame data) := fun _ => rfl
theorem rxFrame (f : Frame) : Statement (.rxFrame f) := fun _ => rfl
theorem reset : Statement .reset := fun _ => rfl
theorem reservedOp (op : BitVec 3) : Statement (.reservedOp op) := by revert op; unfold Statement; decide
theorem sendMsg (dest : Nat) (msg : Bytes) : Statement (.sendMsg dest msg) := fun _ => rfl
theorem recvPoll : Statement .recvPoll := fun _ => rfl

end Sys2Proof.Laws.SelectorReadsBack
end

