-- ==== Sys2Proof/Machine/Text.lean ====
section
/-! DEFINITION. The text forms of operations, frames, outcomes and the state (spec/30_encoding.md R77, R80). They are notation:
no operation reads them. -/

namespace Sys2Proof.Machine

open Sys2Proof

/-- A hexadecimal digit. -/
def hexDigit (n : Nat) : String :=
  ["0", "1", "2", "3", "4", "5", "6", "7", "8", "9", "A", "B", "C", "D", "E", "F"].getD (n % 16) ""

/-- A byte: two hexadecimal digits, no prefix (R77). -/
def byteText (b : Byte) : String := hexDigit (b.toNat / 16) ++ hexDigit b.toNat

/-- Bytes separated by spaces (R77). -/
def bytesText (bs : Bytes) : String := String.intercalate " " (bs.map byteText)

/-- Bytes in brackets (R77). -/
def listText (bs : Bytes) : String := "[" ++ bytesText bs ++ "]"

/-- `<frame>`, after the R77 line `<frame> ::= id=0x<3 hex digits> len=<0..8> data=<len bytes>`. -/
def frameText (f : Frame) : String :=
  "id=0x" ++ hexDigit (f.id.toNat / 256) ++ hexDigit (f.id.toNat / 16) ++ hexDigit f.id.toNat ++
    " len=" ++ toString f.data.length ++ " data=" ++ bytesText f.data

/-- An operation (R77), or a pseudo-operation (R80, R82). R77 gives no form to a wire frame without an identifier, nor to a
reserved selector. R80 writes the operand of `SEND_MSG` as `msg=<bytes>` and gives no form for the bytes: that they stand in
brackets, as R77's `chunk` does, is the model's (DESIGN CHOICE, log 23). -/
def operationText : Instr → Option String
  | .start _ _ _ => none
  | .cont _ _ => none
  | .malformedStart _ => none
  | .malformedCont => none
  | .unknown _ => none
  | .encStart dest totalLength chunk =>
      some ("ENC_START dest=" ++ toString dest.toNat ++ " total=" ++ toString totalLength.toNat ++ " chunk=" ++
        listText chunk)
  | .encCont dest seq chunk =>
      some ("ENC_CONT dest=" ++ toString dest.toNat ++ " seq=" ++ toString seq.toNat ++ " chunk=" ++ listText chunk)
  | .decodeFrame data => some ("DECODE data=" ++ listText data)
  | .rxFrame f => some ("RX_FRAME " ++ frameText f)
  | .reset => some "RESET"
  | .reservedOp _ => none
  | .sendMsg dest msg => some ("SEND_MSG dest=" ++ toString dest ++ " msg=" ++ listText msg)
  | .recvPoll => some "RECV_POLL"

/-- A frame kind (R77). -/
def kindText : FrameKind → String
  | .start totalLength chunk => "Start(total=" ++ toString totalLength.toNat ++ ", chunk=" ++ listText chunk ++ ")"
  | .continuation seq chunk => "Continuation(seq=" ++ toString seq.toNat ++ ", chunk=" ++ listText chunk ++ ")"
  | .unknown => "Unknown"
  | .malformed .start => "Malformed(Start)"
  | .malformed .continuation => "Malformed(Continuation)"

/-- The name of an error (R140). -/
def errorText : ReassemblyError → String
  | .exceedsCapacity => "ExceedsCapacity"
  | .sequenceMismatch => "SequenceMismatch"
  | .unexpectedContinuation => "UnexpectedContinuation"
  | .malformed => "Malformed"

/-- An event (R77). -/
def eventText : Event → String
  | .stillAssembling => "StillAssembling"
  | .complete message => "Complete(" ++ listText message ++ ")"
  | .aborted e => "Aborted(" ++ errorText e ++ ")"
  | .ignored => "Ignored"
  | .filtered => "Filtered"

/-- A fault of the encoder (R77, R94). The text of the buffer's fault is the model's own (DESIGN CHOICE, log 23). -/
def faultText : Fault → String
  | .encChunkTooLong => "fault(EncChunkTooLong)"
  | .encBadDest => "fault(EncBadDest)"
  | .bufferIndexOutOfRange => "fault(BufferIndexOutOfRange)"

/-- The state (R77). -/
def statusText (v : StatusView) : String :=
  "(assembling=" ++ (if v.assembling then "1" else "0") ++ ", expectedLength=" ++ toString v.expectedLength.toNat ++
    ", receivedLength=" ++ toString v.receivedLength.toNat ++ ", nextSeq=" ++ toString v.nextSeq.toNat ++ ")"

end Sys2Proof.Machine
end

