-- ==== Sys2Proof/Tests/Slice0.lean ====
section
/-! SUPPORT. The model's own tests. Expected values are the spec's: the vectors V1 to V75 and programs P1 to P5 of
spec/95_test_vectors.md, named beside each test, and words written out from spec/30_encoding.md. The witnesses show that the
hypotheses of each obligation can be met together, at boundary values of each clause. -/

namespace Sys2Proof.Tests

open Sys2Proof Sys2Proof.Machine

/-! ## Helpers -/

/-- A node after `RESET`. -/
def node (selfId : Dest) (capacity : U16) : State := { State.reset with cfg := { selfId := selfId, capacity := capacity } }

/-- The state `(1, 11, 4, 1)` of the vectors V67 to V72, with the four bytes of step 1 of P1. -/
def mid : State :=
  { State.reset with ra := ⟨11, 4, 1, true, [(0, 0x48), (1, 0x65), (2, 0x6C), (3, 0x6C)]⟩ }

/-- A node asked for `i` next. -/
def asked (s : State) (i : Instr) : State := { s with requests := [i] }

/-- The outcome and the status view after an operation that answers. -/
def seen : Result → Option (Option Response × StatusView)
  | .next t => some (t.response, t.raStatus)
  | .fault _ => none
  | .refused _ => none

/-- The fault of an operation. -/
def faultOf : Result → Option Fault
  | .next _ => none
  | .fault r => some r
  | .refused _ => none

/-- The refusal of an operation. -/
def refusedWith : Result → Option Refusal
  | .next _ => none
  | .fault _ => none
  | .refused r => some r

/-- The buffer after an operation that answers. -/
def bufferAfter : Result → Option Memory
  | .next t => some t.ra.buffer
  | .fault _ => none
  | .refused _ => none

/-! ## Ill-formed terms are refused by WellFormed -/

theorem smoke_start : (Instr.start 5 0 [1, 2, 3, 4, 5]).wf = false := by decide
theorem smoke_cont : (Instr.cont 1 [1, 2, 3, 4, 5, 6, 7]).wf = false := by decide
theorem smoke_malformedStart : (Instr.malformedStart [1, 2, 3]).wf = false := by decide
theorem smoke_unknown_long : (Instr.unknown [1, 2, 3, 4, 5, 6, 7, 8, 9]).wf = false := by decide
theorem smoke_unknown_start : (Instr.unknown [0xAA, 1]).wf = false := by decide
theorem smoke_unknown_cont : (Instr.unknown [0xCC]).wf = false := by decide
theorem smoke_encStart : (Instr.encStart 1 0 (List.replicate 256 0)).wf = false := by
  simp only [Instr.wf, List.length_replicate]; decide
theorem smoke_encCont : (Instr.encCont 1 0 (List.replicate 256 0)).wf = false := by
  simp only [Instr.wf, List.length_replicate]; decide
theorem smoke_decodeFrame : (Instr.decodeFrame (List.replicate 9 0)).wf = false := by decide
theorem smoke_rxFrame : (Instr.rxFrame ⟨0x203, List.replicate 9 0⟩).wf = false := by decide
theorem smoke_reservedOp : (Instr.reservedOp 4).wf = false := by decide
theorem smoke_sendMsg : ∃ n, (Instr.sendMsg 1 (List.replicate n 0)).wf = false := by
  refine ⟨256 ^ 4, ?_⟩
  simp only [Instr.wf, List.length_replicate]; decide
theorem smoke_sendMsg_dest : (Instr.sendMsg 256 []).wf = false := by decide

/-! ## Words written out bit by bit (R61, R62, R66, R69, R76) -/

/-- R61: magic 10101010, length low byte, length high byte, placeholder, chunk; V3's frame, `totalLength` 11. -/
theorem test_word_start :
    decodeTableWord 64 0b10101010_00001011_00000000_00000000_01001000_01100101_01101100_01101100 =
      some (.start 11 0 [0x48, 0x65, 0x6C, 0x6C]) := by decide

/-- R62: magic 11001100, sequence number, chunk; V17's frame, sequence number 255. -/
theorem test_word_cont :
    decodeTableWord 64 0b11001100_11111111_11001011_11010010_11011001_11100000_11100111_11101110 =
      some (.cont 255 [0xCB, 0xD2, 0xD9, 0xE0, 0xE7, 0xEE]) := by decide

/-- R68: V60's frame. -/
theorem test_word_unknown : decodeTableWord 64 0xFFFFFFFFFFFFFFFF = some (.unknown (List.replicate 8 0xFF)) := by decide

/-- R69: a request with the frame of V25, three bytes. -/
theorem test_word_malformedStart : decode [0b00001000, 3, 0b10101010, 0x0B, 0x00] = .ok (.malformedStart [0x0B, 0x00], []) := by
  rfl

/-- R69: a request with the frame of V51, one byte. -/
theorem test_word_malformedCont : decode [0b00001000, 1, 0b11001100] = .ok (.malformedCont, []) := by rfl

/-- R76, selector 0; the operands of V6. -/
theorem test_word_encStart : decode [0b00000000, 4, 0x02, 0x01, 0] = .ok (.encStart 4 258 [], []) := by rfl

/-- R76, selector 1; the operands of V15. -/
theorem test_word_encCont : decode [0b00000001, 3, 2, 1, 0x21] = .ok (.encCont 3 2 [0x21], []) := by rfl

/-- R76, selector 2; the operand of V53. -/
theorem test_word_decodeFrame : decode [0b00000010, 3, 0xCC, 0x02, 0x21] = .ok (.decodeFrame [0xCC, 0x02, 0x21], []) := by rfl

/-- R76, selector 3; the operand of V73. -/
theorem test_word_rxFrame : decode [0b00000011, 0xFF, 0x07, 1, 0xAA] = .ok (.rxFrame ⟨0x7FF, [0xAA]⟩, []) := by rfl

/-- R76, selector 4. -/
theorem test_word_reset : decodeTableWord 3 0b100 = some .reset := by decide

/-- R76, selectors 5, 6 and 7. -/
theorem test_word_reservedOp :
    decodeTableWord 8 0b101 = some (.reservedOp 5) ∧ decodeTableWord 8 0b110 = some (.reservedOp 6) ∧
      decodeTableWord 8 0b111 = some (.reservedOp 7) := by decide

/-- The model's own leading bytes (log 2). -/
theorem test_word_pseudo :
    decode [0b00010000, 3, 2, 0, 0, 0, 0x41, 0x42] = .ok (.sendMsg 3 [0x41, 0x42], []) ∧
      decode [0b00011000, 0x04] = .ok (.recvPoll, [0x04]) := ⟨rfl, rfl⟩

/-- What is no request is refused by name. -/
theorem test_decode_refuses :
    decode [0x20] = .error .unknownRequest ∧ decode [0x02, 9] = .error .reservedFrameLength ∧
      decode [0x02, 2, 0xAA] = .error .truncated ∧ decode [0x00, 8, 0, 0, 0] = .error .reservedBits := ⟨rfl, rfl, rfl, rfl⟩

/-- `withFetchWord` makes the next step run the word's instruction: V3's frame, to a node of configuration `SELF_ID = 3`. -/
theorem test_withFetchWord :
    seen (step (State.reset.withFetchWord 64 0xAA0B000048656C6C)) =
      some (some (.event .stillAssembling), ⟨true, 11, 4, 1⟩) := by decide

/-! ## One step of each instruction -/

/-- V3. -/
theorem test_encStart :
    seen (exec (.encStart 3 11 [0x48, 0x65, 0x6C, 0x6C]) mid) =
      some (some (.frame ⟨0x203, [0xAA, 0x0B, 0x00, 0x00, 0x48, 0x65, 0x6C, 0x6C]⟩), ⟨true, 11, 4, 1⟩) := by decide

/-- V10, and the faults V11 and V13. -/
theorem test_encStart_pad_and_faults :
    seen (exec (.encStart 5 1 [0xD0]) { mid with cfg := ⟨3, 2048, true, 0x55⟩ }) =
        some (some (.frame ⟨0x205, [0xAA, 0x01, 0x00, 0x00, 0xD0, 0x55, 0x55, 0x55]⟩), ⟨true, 11, 4, 1⟩) ∧
      faultOf (exec (.encStart 1 5 [1, 2, 3, 4, 5]) mid) = some .encChunkTooLong ∧
      faultOf (exec (.encStart 6 0 []) mid) = some .encBadDest := by decide

/-- V17. -/
theorem test_encCont :
    seen (exec (.encCont 2 255 [0xCB, 0xD2, 0xD9, 0xE0, 0xE7, 0xEE]) State.reset) =
      some (some (.frame ⟨0x202, [0xCC, 0xFF, 0xCB, 0xD2, 0xD9, 0xE0, 0xE7, 0xEE]⟩), StatusView.idle) := by decide

/-- V16, V20 and V21. -/
theorem test_encCont_pad_and_faults :
    seen (exec (.encCont 3 2 [0x21]) { State.reset with cfg := ⟨3, 2048, true, 0⟩ }) =
        some (some (.frame ⟨0x203, [0xCC, 0x02, 0x21, 0, 0, 0, 0, 0]⟩), StatusView.idle) ∧
      faultOf (exec (.encCont 1 1 [1, 2, 3, 4, 5, 6, 7]) State.reset) = some .encChunkTooLong ∧
      faultOf (exec (.encCont 7 1 [1]) State.reset) = some .encBadDest := by decide

/-- V50: byte 3 is ignored. -/
theorem test_decodeFrame :
    seen (exec (.decodeFrame [0xAA, 0x0B, 0x00, 0x7F, 0x48]) State.reset) =
      some (some (.kind (.start 11 [0x48])), StatusView.idle) := by decide

/-- V22, V25, V51, V54, V59. -/
theorem test_decodeKind :
    decodeKind [] = .unknown ∧ decodeKind [0xAA, 0x0B, 0x00] = .malformed .start ∧
      decodeKind [0xCC] = .malformed .continuation ∧ decodeKind [0xCC, 0x00, 0xF5] = .continuation 0 [0xF5] ∧
      decodeKind [0xAB, 0, 0, 0, 1] = .unknown := by decide

/-- V61: the chunk is longer than the message. -/
theorem test_start :
    seen (exec (.start 2 0 [0x10, 0x20, 0x30, 0x40]) State.reset) =
      some (some (.event (.complete [0x10, 0x20])), StatusView.idle) := by decide

/-- P4, step 3: the old bytes above the new chunk stay in the buffer. -/
theorem test_start_supersedes :
    bufferAfter (exec (.start 5 0 [0xF1, 0xF2])
        { mid with ra := { mid.ra with buffer := [(0, 0x48), (1, 0x65), (2, 0x6C), (3, 0x6C), (4, 0x6F)] } }) =
      some [(0, 0xF1), (1, 0xF2), (2, 0x6C), (3, 0x6C), (4, 0x6F)] := by decide

/-- P1, step 2. -/
theorem test_cont :
    seen (exec (.cont 1 [0x6F, 0x2C, 0x20, 0x43, 0x41, 0x4E]) mid) =
      some (some (.event .stillAssembling), ⟨true, 11, 10, 2⟩) := by decide

/-- V48, last line: six chunk bytes of which the message needs three. -/
theorem test_cont_completes :
    seen (exec (.cont 3 [3, 4, 5, 6, 7, 8]) { State.reset with ra := ⟨5, 2, 3, true, [(0, 1), (1, 2)]⟩ }) =
      some (some (.event (.complete [1, 2, 3, 4, 5])), StatusView.idle) := by decide

/-- V67. -/
theorem test_malformedStart :
    seen (exec (.malformedStart [0x0B, 0x00]) mid) = some (some (.event (.aborted .malformed)), StatusView.idle) := by decide

/-- V66: malformed, not an unexpected continuation. -/
theorem test_malformedCont :
    seen (exec .malformedCont State.reset) = some (some (.event (.aborted .malformed)), StatusView.idle) := by decide

/-- R72: frames of 9 data bytes, as each class of wire frame. -/
theorem test_wire_reserved :
    refusedWith (exec (.start 9 0 [1, 2, 3, 4, 5]) mid) = some .reservedFrameLength ∧
      refusedWith (exec (.cont 1 [1, 2, 3, 4, 5, 6, 7]) mid) = some .reservedFrameLength ∧
      refusedWith (exec (.malformedStart (List.replicate 8 0)) mid) = some .reservedFrameLength ∧
      refusedWith (exec (.unknown (List.replicate 9 0)) mid) = some .reservedFrameLength := by decide

/-- V70. -/
theorem test_unknown : seen (exec (.unknown []) mid) = some (some (.event .ignored), ⟨true, 11, 4, 1⟩) := by decide

/-- V71 and V41. -/
theorem test_rxFrame :
    seen (exec (.rxFrame ⟨0x204, [0xAA, 0, 0, 0]⟩) mid) = some (some (.event .filtered), ⟨true, 11, 4, 1⟩) ∧
      seen (exec (.rxFrame ⟨0x203, [0xAA, 0x01, 0x08, 0, 1, 2, 3, 4]⟩) State.reset) =
        some (some (.event (.aborted .exceedsCapacity)), StatusView.idle) := by decide

/-- V46 and V45. -/
theorem test_rxFrame_sequence :
    seen (exec (.rxFrame ⟨0x203, [0xCC, 0, 5]⟩) mid) = some (some (.event (.aborted .sequenceMismatch)), StatusView.idle) ∧
      seen (exec (.rxFrame ⟨0x203, [0xCC, 0, 1]⟩) State.reset) =
        some (some (.event (.aborted .unexpectedContinuation)), StatusView.idle) := by decide

/-- V74. -/
theorem test_reset :
    seen (exec .reset mid) = some (none, StatusView.idle) ∧ bufferAfter (exec .reset mid) = some [] := by decide

/-- R76. -/
theorem test_reservedOp : refusedWith (exec (.reservedOp 6) mid) = some .reservedOperation := by decide

/-- P1: the three frames of the message of 11 bytes. -/
theorem test_sendMsg :
    seen (exec (.sendMsg 3 [0x48, 0x65, 0x6C, 0x6C, 0x6F, 0x2C, 0x20, 0x43, 0x41, 0x4E, 0x21]) State.reset) =
      some (some (.frames [
        ⟨0x203, [0xAA, 0x0B, 0x00, 0x00, 0x48, 0x65, 0x6C, 0x6C]⟩,
        ⟨0x203, [0xCC, 0x01, 0x6F, 0x2C, 0x20, 0x43, 0x41, 0x4E]⟩,
        ⟨0x203, [0xCC, 0x02, 0x21]⟩]), StatusView.idle) := by decide

/-- R80: a destination outside 1 .. 5 is rejected before anything is emitted. -/
theorem test_sendMsg_rejects :
    seen (exec (.sendMsg 6 [1]) mid) = some (some (.sendRejected .invalidTarget), ⟨true, 11, 4, 1⟩) ∧
      seen (exec (.sendMsg 1000 [1]) mid) = some (some (.sendRejected .invalidTarget), ⟨true, 11, 4, 1⟩) := by decide

/-- R82: the frame of V43's first line, polled. -/
theorem test_recvPoll :
    seen (exec .recvPoll { node 3 1 with linkRx := [⟨0x203, [0xAA, 1, 0, 0, 0x77]⟩] }) =
      some (some (.event (.complete [0x77])), StatusView.idle) := by decide

/-- A poll that finds no frame. -/
theorem test_recvPoll_empty : seen (exec .recvPoll mid) = some (none, ⟨true, 11, 4, 1⟩) := by decide

/-- Text forms, as V9, V29 and V34 print them. -/
theorem test_text :
    operationText (.encStart 5 3 [0xD0, 0xD1, 0xD2]) = some "ENC_START dest=5 total=3 chunk=[D0 D1 D2]" ∧
      frameText ⟨0x201, [0xCC, 0x01, 0x14]⟩ = "id=0x201 len=3 data=CC 01 14" ∧
      kindText (.start 65535 [1]) = "Start(total=65535, chunk=[01])" ∧
      eventText (.aborted .exceedsCapacity) = "Aborted(ExceedsCapacity)" := by decide

/-! ## Witnesses of the obligations' hypotheses -/

theorem ready_reset : State.reset.Ready := ⟨rfl, ⟨by decide, by decide, by decide, by decide⟩, ⟨by decide, by decide⟩⟩

theorem ready_mid : mid.Ready := ⟨rfl, ⟨by decide, by decide, by decide, by decide⟩, ⟨by decide, by decide⟩⟩

/-- A node that has one byte left of its message, at the largest message its capacity holds. -/
def nearly : State := { node 1 5 with ra := ⟨5, 4, 1, true, [(0, 1), (1, 2), (2, 3), (3, 4)]⟩ }

theorem ready_nearly : nearly.Ready := ⟨rfl, ⟨by decide, by decide, by decide, by decide⟩, ⟨by decide, by decide⟩⟩

/-- The invariant holds, before a `RESET` with any scalars and after it, and the step answers. -/
theorem witness_EveryStepKeepsTheInvariant :
    (∃ t, (asked mid (.cont 1 [1])).Inv ∧ step (asked mid (.cont 1 [1])) = .next t) ∧
      ∃ t, (asked { mid with resetDone := false, ra := ⟨65535, 1, 2, false, []⟩ } .reset).Inv ∧
        step (asked { mid with resetDone := false, ra := ⟨65535, 1, 2, false, []⟩ } .reset) = .next t :=
  ⟨⟨_, ⟨by decide, ⟨by decide, by decide⟩, fun _ => ready_mid.inv⟩, rfl⟩,
    ⟨_, ⟨by decide, ⟨by decide, by decide⟩, fun h => by cases h⟩, rfl⟩⟩

theorem witness_NoStepChangesTheConfiguration : ∃ t, step (asked mid .reset) = .next t := ⟨_, rfl⟩

theorem witness_DecodingAnEncodingGivesTheInstruction :
    (Instr.start 65535 0xFF [1, 2, 3, 4]).wf = true ∧ (Instr.cont 255 [1, 2, 3, 4, 5, 6]).wf = true ∧
      (Instr.encStart 7 0 [1, 2, 3, 4, 5]).wf = true ∧ (Instr.rxFrame ⟨0x7FF, List.replicate 8 0⟩).wf = true ∧
      (Instr.reservedOp 5).wf = true ∧ (Instr.sendMsg 255 [1]).wf = true := by decide

theorem witness_DecodedBytesAreTheEncoding : decode [0x03, 0x03, 0x02, 1, 0xCC, 0x04] = .ok (.rxFrame ⟨0x203, [0xCC]⟩, [0x04]) := by
  rfl

theorem witness_FrameMapSelectsEveryWireClass :
    ([0x01, 0x02] : Bytes).length ≤ 2 ∧ ([1, 2, 3, 4] : Bytes).length ≤ 4 ∧ ([1, 2, 3, 4, 5, 6] : Bytes).length ≤ 6 ∧
      (([0xAA, 0xCC, 0, 0, 0, 0, 0] : Bytes).length ≤ 7 ∧ (0xAB : Byte) ≠ 0xAA#8 ∧ (0xAB : Byte) ≠ 0xCC#8) ∧
      ([0xAA, 0, 0, 0, 1, 2, 3, 4] : Bytes).length ≤ 8 := by decide

theorem witness_StepRunsTheDecodedRequest :
    State.reset.cfg.legal ∧ State.reset.requests = [] ∧ (asked mid .reset).cfg.legal ∧
      (asked mid .reset).requests = [.reset] ∧ decodeTableWord 8 4 = some .reset := by decide

/-- A poll that takes a frame, an operation that does not poll, and an idle step. -/
theorem witness_StepsTakeOperationsAndFramesInOrder :
    (∃ t, step { mid with requests := [.recvPoll, .reset], linkRx := [⟨0x203, []⟩] } = .next t) ∧
      (∃ t, step (asked mid .reset) = .next t) ∧ ∃ t, step mid = .next t := ⟨⟨_, rfl⟩, ⟨_, rfl⟩, ⟨_, rfl⟩⟩

/-- Lengths 9 and 15, in both operations; destinations 0, 6 and 7, and no capacity. -/
theorem witness_BoundaryRefusesReservedLengthsAndConfigurations :
    (9 ≤ (9 : Byte).toNat ∧ (15 : Byte).toNat ≤ 15 ∧ (7 : Byte).toNat < 8 ∧ mid.cfg.legal) ∧
      refusedWith (step (asked mid (.decodeFrame (List.replicate 9 0)))) = some .reservedFrameLength ∧
      refusedWith (step (asked mid (.rxFrame ⟨0x204, List.replicate 15 0⟩))) = some .reservedFrameLength ∧
      refusedWith (step (node 0 1)) = some .illegalConfiguration ∧
      refusedWith (step (node 6 1)) = some .illegalConfiguration ∧
      refusedWith (step (node 5 0)) = some .illegalConfiguration ∧ 8 < (List.replicate 9 (0 : Byte)).length ∧
      refusedWith (exec .recvPoll { mid with linkRx := [⟨0x204, List.replicate 9 0⟩] }) = some .reservedFrameLength ∧
      4 < ([1, 2, 3, 4, 5] : Bytes).length ∧ 6 < ([1, 2, 3, 4, 5, 6, 7] : Bytes).length ∧
      7 < (List.replicate 8 (0 : Byte)).length ∧
      refusedWith (step (asked mid (.unknown (List.replicate 9 0)))) = some .reservedFrameLength := by
  decide

theorem witness_ReservedSelectorsAreRefused :
    (5 ≤ (5 : Byte).toNat ∧ (7 : Byte).toNat ≤ 7 ∧ mid.cfg.legal) ∧
      refusedWith (step (asked mid (.reservedOp 5))) = some .reservedOperation ∧
      refusedWith (step (asked mid (.reservedOp 7))) = some .reservedOperation := by decide

/-- The three clauses at their boundaries: chunks of 4 and 5 bytes, destinations 1 and 5, then 0 and 6. -/
theorem witness_EncStartBuildsTheStartFrame :
    (([1, 2, 3, 4] : Bytes).length ≤ 4 ∧ 1 ≤ (1 : Dest).toNat ∧ (5 : Dest).toNat ≤ 5) ∧
      4 < ([1, 2, 3, 4, 5] : Bytes).length ∧ (0 : Dest).toNat < 1 ∧ 5 < (6 : Dest).toNat := by decide

theorem witness_EncContBuildsTheContinuationFrame :
    (([1, 2, 3, 4, 5, 6] : Bytes).length ≤ 6 ∧ 1 ≤ (1 : Dest).toNat ∧ (5 : Dest).toNat ≤ 5) ∧
      6 < ([1, 2, 3, 4, 5, 6, 7] : Bytes).length ∧ (0 : Dest).toNat < 1 ∧ 5 < (7 : Dest).toNat := by decide

/-- A frame of each clause, the longest it has. -/
theorem witness_DecodeClassifiesEveryFrame :
    ([] : Bytes).length ≤ 8 ∧ ([0xAA#8, 1, 2] : Bytes).length ≤ 8 ∧ ([0xAA#8, 1, 2, 3, 4, 5, 6, 7] : Bytes).length ≤ 8 ∧
      ([0xCC#8] : Bytes).length ≤ 8 ∧ ([0xCC#8, 0, 1, 2, 3, 4, 5, 6] : Bytes).length ≤ 8 ∧
      (([0xAB#8, 1, 2, 3, 4, 5, 6, 7] : Bytes).length ≤ 8 ∧ 0xAB#8 ≠ 0xAA#8 ∧ 0xAB#8 ≠ 0xCC#8) := by decide

theorem witness_CodecRoundTrip :
    (1 ≤ (5 : Dest).toNat ∧ (5 : Dest).toNat ≤ 5 ∧ ([1, 2, 3, 4] : Bytes).length ≤ 4 ∧ ([1, 2, 3, 4, 5, 6] : Bytes).length ≤ 6) ∧
      mid.cfg.padEnable = false ∧ ([0xAA, 1, 2, 0x7F, 3, 4, 5, 6] : Bytes).length ≤ 8 ∧
      exec (.decodeFrame [0xAA, 1, 2, 0x7F, 3, 4, 5, 6]) mid =
        .next { mid with response := some (.kind (.start 513 [3, 4, 5, 6])) } ∧
      exec (.decodeFrame [0xCC, 0, 1, 2, 3, 4, 5, 6]) mid =
        .next { mid with response := some (.kind (.continuation 0 [1, 2, 3, 4, 5, 6])) } :=
  ⟨by decide, by decide, by decide, rfl, rfl⟩

theorem witness_EncoderAndDecoderAreIdempotent :
    (∃ t, exec (.encStart 5 0 []) mid = .next t) ∧ (∃ t, exec (.encCont 1 0 [1]) mid = .next t) ∧
      ∃ t, exec (.decodeFrame []) mid = .next t := ⟨⟨_, rfl⟩, ⟨_, rfl⟩, ⟨_, rfl⟩⟩

theorem witness_FilteredFramesChangeNothing :
    mid.resetDone = true ∧ (List.replicate 8 (0 : Byte)).length ≤ 8 ∧ (0x204 : BusId).toNat ≠ 0x200 + mid.cfg.selfId.toNat := by
  decide

theorem witness_RxFrameIsTotal : mid.Ready ∧ (List.replicate 8 (0xAA : Byte)).length ≤ 8 := ⟨ready_mid, by decide⟩

theorem witness_RxFrameRunsTheWireInstruction :
    (0x203 : BusId).toNat = 0x200 + mid.cfg.selfId.toNat ∧
      wireData (.start 0xAAAA 0xAA (List.replicate 4 0xAA)) = some (⟨0x203, List.replicate 8 0xAA⟩ : Frame).data := by decide

/-- A length equal to the capacity, in a chunk that holds the message and in one that does not. -/
theorem witness_StartFrameAccepted :
    nearly.Ready ∧ ([1, 2, 3, 4] : Bytes).length ≤ 4 ∧ (5 : U16).toNat ≤ nearly.cfg.capacity.toNat ∧ ([1, 2, 3, 4] : Bytes).length < (5 : U16).toNat ∧
      (4 : U16).toNat ≤ nearly.cfg.capacity.toNat ∧ (4 : U16).toNat ≤ ([1, 2, 3, 4] : Bytes).length ∧
      (0 : U16).toNat ≤ ([] : Bytes).length := ⟨ready_nearly, by decide⟩

theorem witness_StartFrameExceedsCapacity :
    mid.resetDone = true ∧ ([1, 2, 3, 4] : Bytes).length ≤ 4 ∧ mid.cfg.capacity.toNat < (2049 : U16).toNat := by decide

/-- One chunk byte finishes the message; an empty chunk does not. -/
theorem witness_ContinuationFrameAccepted :
    nearly.Ready ∧ ([9, 0, 0, 0, 0, 0] : Bytes).length ≤ 6 ∧ nearly.ra.assembling = true ∧ 1 = nearly.ra.nextSeq ∧
      nearly.ra.expectedLength.toNat ≤ nearly.ra.receivedLength.toNat + ([9, 0, 0, 0, 0, 0] : Bytes).length ∧
      nearly.ra.expectedLength.toNat ≤ nearly.ra.receivedLength.toNat + ([9] : Bytes).length ∧
      nearly.ra.receivedLength.toNat + ([] : Bytes).length < nearly.ra.expectedLength.toNat := ⟨ready_nearly, by decide⟩

theorem witness_ContinuationFrameOutOfSequence :
    mid.resetDone = true ∧ ([1, 2, 3, 4, 5, 6] : Bytes).length ≤ 6 ∧ mid.ra.assembling = true ∧ 0 ≠ mid.ra.nextSeq := by decide

theorem witness_ContinuationFrameWhileIdle :
    State.reset.Ready ∧ ([1, 2, 3, 4, 5, 6] : Bytes).length ≤ 6 ∧ State.reset.ra.assembling = false :=
  ⟨ready_reset, by decide, rfl⟩

/-- The longest frame of the row, and the empty one. -/
theorem witness_UnknownFrameIsIgnored :
    mid.resetDone = true ∧ ([0xAB, 0xAA, 0, 0, 0, 0, 0, 0] : Bytes).length ≤ 8 ∧ (0xAB : Byte) ≠ 0xAA#8 ∧ (0xAB : Byte) ≠ 0xCC#8 ∧
      ([] : Bytes).length ≤ 8 := by decide

theorem witness_MalformedFramesAbort :
    mid.resetDone = true ∧ State.reset.resetDone = true ∧ ([0x0B, 0x00] : Bytes).length ≤ 2 := by decide

/-- A frame of each clause of the priority order, on a state where its condition holds. -/
theorem witness_EventFollowsThePriorityOrder :
    mid.Ready ∧ State.reset.Ready ∧ ¬ isFor mid.cfg ⟨0x200, []⟩ ∧ isFor mid.cfg ⟨0x203, [0xCC, 0]⟩ ∧
      mid.cfg.capacity.toNat < (0x01 : Byte).toNat + 256 * (0x08 : Byte).toNat ∧
      (0x00 : Byte).toNat + 256 * (0x08 : Byte).toNat ≤ mid.cfg.capacity.toNat ∧ State.reset.ra.assembling = false ∧
      mid.ra.assembling = true ∧ 0 ≠ mid.ra.nextSeq ∧ 1 = mid.ra.nextSeq :=
  ⟨ready_mid, ready_reset, by unfold isFor; decide, by unfold isFor; decide, by decide⟩

theorem witness_AbortZeroesTheScalarsAndKeepsTheBuffer :
    ∃ t, exec (.cont 9 []) mid = .next t ∧ t.response = some (.event (.aborted .sequenceMismatch)) := ⟨_, rfl, rfl⟩

/-- Each of the five events. -/
theorem witness_EventTellsTheStateAfter :
    mid.Ready ∧
      (∃ t, exec (.cont 1 []) mid = .next t ∧ t.response = some (.event .stillAssembling)) ∧
      (∃ t, exec (.start 0 0 []) mid = .next t ∧ t.response = some (.event (.complete []))) ∧
      (∃ t, exec .malformedCont mid = .next t ∧ t.response = some (.event (.aborted .malformed))) ∧
      (∃ t, exec (.unknown []) mid = .next t ∧ t.response = some (.event .ignored)) ∧
      ∃ t, exec (.rxFrame ⟨0, []⟩) mid = .next t ∧ t.response = some (.event .filtered) :=
  ⟨ready_mid, ⟨_, rfl, rfl⟩, ⟨_, rfl, rfl⟩, ⟨_, rfl, rfl⟩, ⟨_, rfl, rfl⟩, ⟨_, rfl, rfl⟩⟩

theorem witness_OnlyResetAndReceivedFramesChangeReassemblyState :
    (∃ t, exec .reset mid = .next t ∧ t.ra ≠ mid.ra) ∧ ∃ t, exec (.cont 1 []) mid = .next t ∧ t.ra ≠ mid.ra :=
  ⟨⟨_, rfl, by decide⟩, ⟨_, rfl, by decide⟩⟩

theorem witness_OnlyTheEncoderFaults :
    mid.Ready ∧ exec (.encCont 0 0 []) mid = .fault .encBadDest ∧
      exec (.encStart 1 0 [1, 2, 3, 4, 5]) mid = .fault .encChunkTooLong := ⟨ready_mid, rfl, rfl⟩

/-- The last index of the buffer, by a continuation frame and by a start frame. -/
theorem witness_WritesStayBelowTheExpectedLength :
    nearly.Ready ∧
      (∃ t, exec (.rxFrame ⟨0x201, [0xCC, 1, 9]⟩) nearly = .next t ∧ t.ra.buffer.read 4 ≠ nearly.ra.buffer.read 4) ∧
      ∃ t, exec (.rxFrame ⟨0x201, [0xAA, 4, 0, 0, 9, 9, 9, 9]⟩) nearly = .next t ∧
        t.ra.buffer.read 3 ≠ nearly.ra.buffer.read 3 := ⟨ready_nearly, ⟨_, rfl, by decide⟩, ⟨_, rfl, by decide⟩⟩

/-- A state before the first `RESET`, with scalars no run leaves. -/
def unlaunched : State := { mid with resetDone := false, ra := ⟨1, 65535, 7, true, []⟩ }

theorem witness_BeforeResetOnlyReceivingIsRefused :
    unlaunched.resetDone = false ∧ ([0xCC, 1] : Bytes).length ≤ 8 ∧ mid.cfg = unlaunched.cfg ∧
      refusedWith (exec .recvPoll { unlaunched with linkRx := [⟨0x204, []⟩] }) = some .beforeReset ∧
      (∃ t, exec (.encStart 1 0 []) mid = .next t) ∧ (∃ t, exec (.encCont 5 0 []) mid = .next t) ∧
      (∃ t, exec (.decodeFrame []) mid = .next t) ∧ ∃ t, exec (.sendMsg 1 [1]) mid = .next t :=
  ⟨rfl, by decide, rfl, by decide, ⟨_, rfl⟩, ⟨_, rfl⟩, ⟨_, rfl⟩, ⟨_, rfl⟩⟩

theorem witness_RepeatedContinuationIsOutOfSequence :
    mid.Ready ∧ ∃ t, exec (.cont 1 [1]) mid = .next t ∧ t.response = some (.event .stillAssembling) :=
  ⟨ready_mid, _, rfl, rfl⟩

/-- A start frame of 5 bytes with one of them, then a continuation frame, an unknown one and one for another node. -/
theorem witness_SequenceNumberCountsAcceptedFrames :
    ∃ t, mid.Ready ∧ decodeKind [0xAA, 5, 0, 0, 1] = .start 5 [1] ∧ isFor mid.cfg ⟨0x203, [0xAA, 5, 0, 0, 1]⟩ ∧
      (∀ g ∈ [(⟨0x203, [0xCC, 1, 2]⟩ : Frame), ⟨0x203, []⟩, ⟨0x204, [0xAA, 0, 0, 0]⟩],
        isFor mid.cfg g → ∀ L c, decodeKind g.data ≠ .start L c) ∧
      rxAll mid [⟨0x203, [0xAA, 5, 0, 0, 1]⟩, ⟨0x203, [0xCC, 1, 2]⟩, ⟨0x203, []⟩, ⟨0x204, [0xAA, 0, 0, 0]⟩] =
        some ([.stillAssembling, .stillAssembling, .ignored, .filtered], t) ∧
      ∀ e ∈ [Event.stillAssembling, .ignored, .filtered], e = .stillAssembling ∨ e = .ignored ∨ e = .filtered := by
  refine ⟨_, ready_mid, rfl, by unfold isFor; decide, ?_, rfl, by decide⟩
  intro g hg
  simp only [List.mem_cons, List.not_mem_nil, or_false] at hg
  rcases hg with rfl | rfl | rfl
  · intro _ L c h; cases h
  · intro _ L c h; cases h
  · intro h; exact absurd h (by unfold isFor; decide)

/-- Two states that differ in byte 9, above the four bytes received. -/
theorem witness_StaleBufferBytesAreUnobservable :
    ∃ s' t : State, s' ≠ asked mid (.cont 1 [1]) ∧ (asked mid (.cont 1 [1])).Similar s' ∧
      (asked mid (.cont 1 [1])).ra.buffer.Ok (asked mid (.cont 1 [1])).cfg ∧ s'.ra.buffer.Ok s'.cfg ∧
      step (asked mid (.cont 1 [1])) = .next t :=
  ⟨asked { mid with ra := { mid.ra with buffer := mid.ra.buffer ++ [(9, 0x55)] } } (.cont 1 [1]), _, by decide,
    ⟨rfl, ⟨rfl, by decide⟩, rfl, rfl, rfl, rfl⟩, ⟨by decide, by decide⟩, ⟨by decide, by decide⟩, rfl⟩

/-- A message as long as the capacity; and a sender that pads. -/
theorem witness_MessageRoundTrip :
    nearly.Ready ∧ nearly.cfg.legal ∧ ([1, 2, 3, 4, 5] : Bytes).length ≤ nearly.cfg.capacity.toNat := ⟨ready_nearly, by decide⟩

theorem witness_PollingReceiverDeliversTheMessage :
    ∃ (s : State) (fs : List Frame), s.Ready ∧ s.cfg.legal ∧ ([1, 2, 3, 4, 5] : Bytes).length ≤ s.cfg.capacity.toNat ∧
      exec (.sendMsg s.cfg.selfId.toNat [1, 2, 3, 4, 5]) mid = .next { mid with response := some (.frames fs) } ∧
      s.requests = .recvPoll :: [.reset] ∧ s.linkRx = fs ++ [⟨0, []⟩] :=
  ⟨{ nearly with
      requests := [.recvPoll, .reset],
      linkRx := [⟨0x201, [0xAA, 5, 0, 0, 1, 2, 3, 4]⟩, ⟨0x201, [0xCC, 1, 5]⟩, ⟨0, []⟩] },
    [⟨0x201, [0xAA, 5, 0, 0, 1, 2, 3, 4]⟩, ⟨0x201, [0xCC, 1, 5]⟩],
    ⟨rfl, ready_nearly.inv, ready_nearly.buffer⟩, by decide, by decide, rfl, rfl, rfl⟩

theorem witness_CapacityBoundary :
    mid.Ready ∧ isFor mid.cfg ⟨0x203, [0xAA, 0, 8, 0, 1, 2, 3, 4]⟩ ∧ ([1, 2, 3, 4] : Bytes).length ≤ 4 ∧
      (0 : Byte).toNat + 256 * (8 : Byte).toNat = mid.cfg.capacity.toNat ∧
      (1 : Byte).toNat + 256 * (8 : Byte).toNat = mid.cfg.capacity.toNat + 1 :=
  ⟨ready_mid, by unfold isFor; decide, by decide⟩

theorem witness_SequenceGapThenNextMessage :
    nearly.Ready ∧ nearly.cfg.legal ∧ nearly.ra.assembling = true ∧ isFor nearly.cfg ⟨0x201, [0xCC, 2, 1, 2, 3, 4, 5, 6]⟩ ∧
      ([1, 2, 3, 4, 5, 6] : Bytes).length ≤ 6 ∧ 2 ≠ nearly.ra.nextSeq ∧
      ([1, 2, 3, 4, 5] : Bytes).length ≤ nearly.cfg.capacity.toNat :=
  ⟨ready_nearly, by decide, rfl, by unfold isFor; decide, by decide⟩

theorem witness_SupersedingStartDiscardsTheOldMessage :
    mid.Ready ∧ State.reset.Ready ∧ mid.cfg = State.reset.cfg ∧ mid.ra.assembling = true ∧
      State.reset.ra.assembling = false ∧ ([1, 2, 3, 4] : Bytes).length ≤ 4 ∧ (2048 : U16).toNat ≤ mid.cfg.capacity.toNat :=
  ⟨ready_mid, ready_reset, rfl, rfl, rfl, by decide⟩

theorem witness_ZeroLengthMessage : mid.Ready ∧ mid.cfg.legal ∧ State.reset.cfg.padEnable = false :=
  ⟨ready_mid, by decide, rfl⟩

theorem witness_SendMsgExpandsToEncoderOperations :
    1 ≤ 1 ∧ 5 ≤ 5 ∧ (List.replicate 65535 (0 : Byte)).length ≤ 65535 :=
  ⟨by decide, by decide, by rw [List.length_replicate]⟩

theorem witness_SendMsgRejectsWithoutSideEffects :
    0 < 1 ∧ 5 < 6 ∧ 5 < 1000 ∧ 65535 < (List.replicate 65536 (0 : Byte)).length :=
  ⟨by decide, by decide, by decide, by rw [List.length_replicate]; decide⟩

theorem witness_RecvPollGivesTheOldestFrameToRxFrame :
    mid.linkRx = [] ∧ ∃ s : State, s.Ready ∧ s.linkRx = [⟨0x203, List.replicate 8 0⟩] ∧
      (List.replicate 8 (0 : Byte)).length ≤ 8 :=
  ⟨rfl, { mid with linkRx := [⟨0x203, List.replicate 8 0⟩] }, ⟨rfl, ready_mid.inv, ready_mid.buffer⟩, rfl, by decide⟩

/-- A run with one frame before the harmless frame and one after it, both kinds of harmless frame. -/
theorem witness_UnknownAndForeignFramesAreHarmlessAnywhere :
    ∃ t, mid.Ready ∧ ([0x55, 1, 2, 3, 4, 5, 6, 7] : Bytes).length ≤ 8 ∧ ¬ isFor mid.cfg ⟨0x204, [0xAA]⟩ ∧
      decodeKind [0x55, 1, 2, 3, 4, 5, 6, 7] = .unknown ∧
      rxAll mid ([⟨0x203, [0xCC, 1, 1]⟩] ++ [⟨0x203, [0xCC, 2, 2]⟩]) = some ([.stillAssembling, .stillAssembling], t) :=
  ⟨_, ready_mid, by decide, by unfold isFor; decide, rfl, rfl⟩

/-- Two attempts, the second of them the last of the budget: taken, or the link fails; and a link that stays busy. -/
theorem witness_FrameSenderRetriesWhileBusy :
    sendFrame (fun i => if i = 0 then some .busy else none) 2 0 = (none, 2) ∧
      sendFrame (fun i => if i = 0 then some .busy else some .initFailure) 2 0 = (some .initFailure, 2) ∧
      sendFrame (fun i => if i = 0 then some .busy else some .transmitFailure) 2 0 = (some .transmitFailure, 2) ∧
      sendFrame (fun _ => some .busy) 2 0 = (some .busyTimeout, 2) := by decide

/-- A message of two frames whose second frame the link refuses. -/
theorem witness_PartialTransmissionStallsTheReceiver :
    ∃ fs sent, nearly.Ready ∧ nearly.cfg.legal ∧ ([1, 2, 3, 4, 5] : Bytes).length ≤ nearly.cfg.capacity.toNat ∧
      exec (.sendMsg nearly.cfg.selfId.toNat [1, 2, 3, 4, 5]) mid = .next { mid with response := some (.frames fs) } ∧
      transmitAll (fun i => if i = 0 then none else some .transmitFailure) 1 fs 0 = (sent, some .transmitFailure) ∧ sent ≠ [] :=
  ⟨_, [⟨0x201, [0xAA, 5, 0, 0, 1, 2, 3, 4]⟩], ready_nearly, by decide, by decide, rfl, rfl, by decide⟩

end Sys2Proof.Tests
end

/-! # The state: what operations do to it, the invariant, counting, and bytes without a meaning -/

namespace Sys2Proof.Machine

open Sys2Proof

/-! ## What an operation does to the reassembler and to the queues -/

/-- A wire frame that answers has run `RA_STEP` on its kind (R123). -/
theorem wireFrame_answers {d : Bytes} {s t : State} (h : wireFrame d s = .next t) :
    ∃ ra e, raStep (decodeKind d) s.cfg s.ra = .ok (ra, e) ∧ t = { s with ra := ra, response := some (.event e) } :=
  (receive_next (wireFrame_next h).2).2

/-- `RX_FRAME` that answers has run `RA_STEP` on its frame's kind, or has filtered the frame (R110, R111). -/
theorem rxFrame_answers {f : Frame} {s t : State} (h : rxFrame f s = .next t) :
    (addressed s.cfg f ∧ ∃ ra e, raStep (decodeKind f.data) s.cfg s.ra = .ok (ra, e) ∧
      t = { s with ra := ra, response := some (.event e) }) ∨
    (¬ addressed s.cfg f ∧ t = { s with response := some (.event .filtered) }) := by
  obtain ⟨-, ra, e, hok, rfl⟩ := receive_next (withFrame_next h).2
  by_cases ha : addressed s.cfg f
  · exact .inl ⟨ha, ra, e, by rwa [rxStep, if_pos ha] at hok, rfl⟩
  · rw [rxStep, if_neg ha] at hok
    cases hok
    exact .inr ⟨ha, rfl⟩

/-- One iteration of `RECV_POLL`: an empty poll, or `RX_FRAME` of the oldest frame (R82). -/
theorem execRecvPoll_answers {s t : State} (h : execRecvPoll s = .next t) :
    (s.linkRx = [] ∧ t = State.again { s with response := none } .recvPoll) ∨
    ∃ f fs, s.linkRx = f :: fs ∧ rxFrame f (State.again { s with linkRx := fs } .recvPoll) = .next t := by
  unfold execRecvPoll at h
  split at h
  · rename_i hl
    cases h
    exact .inl ⟨hl, rfl⟩
  · rename_i f fs hl
    exact .inr ⟨f, fs, hl, h⟩

/-- What the operation `i`, taking `s` to `t`, did to ReassemblyState, and what it reported of that. -/
inductive Effect (s : State) (i : Instr) (t : State) : Prop
  /-- It gave `RA_STEP` a frame. -/
  | given (d : Bytes) (e : Event) (frame : givenTo s i = some d)
      (ran : raStep (decodeKind d) s.cfg s.ra = .ok (t.ra, e)) (reported : t.response = some (.event e))
  /-- It filtered a frame. -/
  | filtered (kept : t.ra = s.ra) (reported : t.response = some (.event .filtered))
  /-- It was `RESET`. -/
  | reset (isReset : i = .reset) (silent : t.response = none)
  /-- It had nothing to do with the reassembler. -/
  | apart (kept : t.ra = s.ra) (noEvent : ∀ e, t.response ≠ some (.event e))

theorem givenTo_of_wireData {i : Instr} {d : Bytes} (h : wireData i = some d) (s : State) : givenTo s i = some d := by
  cases i <;> cases h <;> rfl

theorem wire_effect {i : Instr} {d : Bytes} {s t : State} (hi : wireData i = some d) (h : exec i s = .next t) :
    Effect s i t := by
  rw [exec_of_wireData hi] at h
  obtain ⟨ra, e, hok, rfl⟩ := wireFrame_answers h
  exact .given d e (givenTo_of_wireData hi s) hok rfl

/-- An operation that runs `RX_FRAME` of `f` on a state with the configuration and the ReassemblyState of `s`. -/
theorem rxFrame_effect {i : Instr} {f : Frame} {s u t : State} (hcfg : u.cfg = s.cfg) (hra : u.ra = s.ra)
    (hi : addressed s.cfg f → givenTo s i = some f.data) (h : rxFrame f u = .next t) : Effect s i t := by
  rcases rxFrame_answers h with ⟨ha, ra, e, hok, rfl⟩ | ⟨-, rfl⟩
  · exact .given f.data e (hi (hcfg ▸ ha)) (by rw [← hcfg, ← hra]; exact hok) rfl
  · exact .filtered hra rfl

/-- Every operation that answers has one of the effects. -/
theorem exec_effect {i : Instr} {s t : State} (h : exec i s = .next t) : Effect s i t := by
  cases i with
  | start L p c => exact wire_effect rfl h
  | cont q c => exact wire_effect rfl h
  | malformedStart tail => exact wire_effect rfl h
  | malformedCont => exact wire_effect rfl h
  | unknown d => exact wire_effect rfl h
  | encStart d L c => obtain ⟨f, -, rfl⟩ := respondFrame_next h; exact .apart rfl (by simp)
  | encCont d q c => obtain ⟨f, -, rfl⟩ := respondFrame_next h; exact .apart rfl (by simp)
  | decodeFrame d => obtain ⟨-, h⟩ := withFrame_next h; cases h; exact .apart rfl (by simp)
  | rxFrame f => exact rxFrame_effect rfl rfl (fun ha => if_pos ha) h
  | reset => cases h; exact .reset rfl rfl
  | reservedOp op => cases h
  | sendMsg d msg =>
    rcases execSendMsg_cases d msg s with ⟨-, hx⟩ | ⟨-, -, hx⟩ | ⟨-, -, fs, -, hx⟩
    all_goals
      cases hx.symm.trans h
      exact .apart rfl (by simp)
  | recvPoll =>
    rcases execRecvPoll_answers h with ⟨-, rfl⟩ | ⟨f, fs, hl, hx⟩
    · exact .apart rfl (by simp)
    · have given : addressed s.cfg f → givenTo s .recvPoll = some f.data := fun ha => by simp [givenTo, hl, ha]
      exact rxFrame_effect (u := State.again { s with linkRx := fs } .recvPoll) rfl rfl given hx

/-- No operation writes the configuration (R33). -/
theorem exec_cfg {i : Instr} {s t : State} (h : exec i s = .next t) : t.cfg = s.cfg := by
  rcases exec_next h with ⟨-, f, ra, e, -, -, ht⟩ | ⟨-, ht⟩ | ht
  all_goals rw [ht]

/-- `RX_FRAME` leaves the two input queues alone. -/
theorem rxFrame_queues {f : Frame} {s t : State} (h : rxFrame f s = .next t) :
    t.requests = s.requests ∧ t.linkRx = s.linkRx := by
  obtain ⟨-, ra, e, -, rfl⟩ := receive_next (withFrame_next h).2
  exact ⟨rfl, rfl⟩

theorem wire_queues {i : Instr} {d : Bytes} {s t : State} (hi : wireData i = some d) (h : exec i s = .next t) :
    t.requests = s.requests ∧ t.linkRx = s.linkRx := by
  rw [exec_of_wireData hi] at h
  obtain ⟨ra, e, -, rfl⟩ := wireFrame_answers h
  exact ⟨rfl, rfl⟩

/-- `RECV_POLL` puts itself back and takes the oldest frame held, if there is one (R82). -/
theorem exec_recvPoll_queues {s t : State} (h : exec .recvPoll s = .next t) :
    t.requests = .recvPoll :: s.requests ∧ t.linkRx = s.linkRx.tail := by
  rcases execRecvPoll_answers h with ⟨hl, rfl⟩ | ⟨f, fs, hl, hx⟩
  · exact ⟨rfl, by simp [hl]⟩
  · obtain ⟨hreq, hrx⟩ := rxFrame_queues hx
    exact ⟨hreq, by rw [hrx, hl]; rfl⟩

/-- Every operation but `RECV_POLL` leaves the two input queues alone. -/
theorem exec_queues {i : Instr} {s t : State} (hi : i ≠ .recvPoll) (h : exec i s = .next t) :
    t.requests = s.requests ∧ t.linkRx = s.linkRx := by
  cases i with
  | start L p c => exact wire_queues rfl h
  | cont q c => exact wire_queues rfl h
  | malformedStart tail => exact wire_queues rfl h
  | malformedCont => exact wire_queues rfl h
  | unknown d => exact wire_queues rfl h
  | encStart d L c => obtain ⟨f, -, rfl⟩ := respondFrame_next h; exact ⟨rfl, rfl⟩
  | encCont d q c => obtain ⟨f, -, rfl⟩ := respondFrame_next h; exact ⟨rfl, rfl⟩
  | decodeFrame d => obtain ⟨-, h⟩ := withFrame_next h; cases h; exact ⟨rfl, rfl⟩
  | rxFrame f => exact rxFrame_queues h
  | reset => cases h; exact ⟨rfl, rfl⟩
  | reservedOp op => cases h
  | sendMsg d msg => obtain ⟨r, rfl⟩ := execSendMsg_next h; exact ⟨rfl, rfl⟩
  | recvPoll => exact absurd rfl hi

/-! ## The step -/

theorem step_idle {s : State} (hl : s.cfg.legal) (h : s.requests = []) : step s = .next s := by
  rw [step, fetch_idle hl h]; rfl

theorem step_issue {s : State} {i : Instr} {rest : List Instr} (hl : s.cfg.legal) (h : s.requests = i :: rest) :
    step s = exec i { s with requests := rest } := by
  rw [step, fetch_issue hl h]; rfl

/-! ## The invariant -/

theorem reset_inv (cfg : Config) : ReassemblyState.reset.Inv cfg := idle_inv cfg .reset

theorem reset_buffer_ok (cfg : Config) : ReassemblyState.reset.buffer.Ok cfg :=
  ⟨⟨.nil, fun _ h => nomatch h⟩, fun _ h => nomatch h⟩

theorem reset_ready : State.reset.Ready := ⟨rfl, reset_inv _, reset_buffer_ok _⟩

/-- A step of the reassembler, behind the filter or not, keeps the scalars' and the buffer's invariants. -/
theorem reassembler_keeps_inv {f : Config → ReassemblyState → RaResult} {cfg : Config} {ra ra' : ReassemblyState}
    {e : Event} (hf : (∃ k, f = raStep k) ∨ ∃ g, f = rxStep g) (h : f cfg ra = .ok (ra', e)) (hi : ra.Inv cfg)
    (hb : ra.buffer.Ok cfg) : ra'.Inv cfg ∧ ra'.buffer.Ok cfg := by
  have good : RaResult.Good cfg (f cfg ra) := by
    rcases hf with ⟨k, rfl⟩ | ⟨g, rfl⟩
    · exact raStep_good k hi hb
    · exact rxStep_good g hi hb
  obtain ⟨ra₁, e₁, hok, hinv, hbuf⟩ := good
  cases h.symm.trans hok
  exact ⟨hinv, hbuf⟩

/-- Every operation keeps the invariant of the machine. -/
theorem exec_keeps_inv {i : Instr} {s t : State} (hs : s.Inv) (h : exec i s = .next t) : t.Inv := by
  rcases exec_next h with ⟨hl, f, ra, e, hok, hf, ht⟩ | ⟨-, ht⟩ | ht
  · obtain ⟨hinv, hbuf⟩ := reassembler_keeps_inv hf hok (hs.live hl) hs.buffer
    rw [ht]
    exact ⟨hs.legal, hbuf, fun _ => hinv⟩
  · rw [ht]
    exact ⟨hs.legal, reset_buffer_ok _, fun _ => reset_inv _⟩
  · rw [ht]
    exact ⟨hs.legal, hs.buffer, hs.live⟩

/-- Settles O4: a step idles or runs an operation, and every operation keeps the invariant. -/
theorem everyStepKeepsTheInvariant : Obligations.EveryStepKeepsTheInvariant := by
  intro s t hs h
  obtain ⟨-, ⟨-, rfl⟩ | ⟨i, rest, -, hx⟩⟩ := step_next h
  · exact hs
  · exact exec_keeps_inv (s := { s with requests := rest }) ⟨hs.legal, hs.buffer, hs.live⟩ hx

/-! ## Counting the frames accepted since the start frame (R28 item 4) -/

/-- `Assembling` a message of `L` bytes of which `n` frames have come, the start frame among them. -/
structure ReassemblyState.Counts (L : U16) (n : Nat) (ra : ReassemblyState) : Prop where
  assembling : ra.assembling = true
  expected : ra.expectedLength = L
  next : ra.nextSeq = BitVec.ofNat 8 n

/-- An event that neither ends the message nor aborts it. -/
def Event.harmless (e : Event) : Prop := e = .stillAssembling ∨ e = .ignored ∨ e = .filtered

/-- Storing a chunk without finishing the message does not change the count. -/
theorem storeAndCheck_counts {cfg : Config} {ra ra' : ReassemblyState} {c : Bytes} {e : Event} {L : U16} {n : Nat}
    (hc : ra.Counts L n) (h : storeAndCheck cfg c ra = .ok (ra', e)) (he : e.harmless) :
    e = .stillAssembling ∧ ra'.Counts L n := by
  rcases storeAndCheck_next h with ⟨hs, ha, hx, hn⟩ | ⟨m, rfl, -⟩
  · exact ⟨hs, ha.trans hc.assembling, hx.trans hc.expected, hn.trans hc.next⟩
  · simp [Event.harmless] at he

/-- An accepted, unfinished start frame is the first frame of its message. -/
theorem raStep_start_counts {cfg : Config} {ra ra' : ReassemblyState} {L : U16} {c : Bytes}
    (h : raStep (.start L c) cfg ra = .ok (ra', .stillAssembling)) : ra'.Counts L 1 := by
  rcases raStep_next h with ⟨he, -⟩ | ⟨r, he, -⟩ | ⟨L', c', hk, -, hx⟩ | ⟨q, c', hk, -⟩
  · cases he
  · cases he
  · cases hk
    exact (storeAndCheck_counts (n := 1) ⟨rfl, rfl, rfl⟩ hx (.inl rfl)).2
  · cases hk

/-- Any other frame raises the count by one exactly when it is answered `StillAssembling`. -/
theorem raStep_counts {k : FrameKind} {cfg : Config} {ra ra' : ReassemblyState} {e : Event} {L : U16} {n : Nat}
    (hc : ra.Counts L n) (hk : ∀ L' c', k ≠ .start L' c') (h : raStep k cfg ra = .ok (ra', e)) (he : e.harmless) :
    ra'.Counts L (n + [e].count .stillAssembling) := by
  rcases raStep_next h with ⟨rfl, rfl, -⟩ | ⟨r, rfl, -⟩ | ⟨L', c', hs, -⟩ | ⟨q, c', -, -, -, hx⟩
  · exact hc
  · simp [Event.harmless] at he
  · exact absurd hs (hk L' c')
  · have next : ({ ra with nextSeq := ra.nextSeq + 1 } : ReassemblyState).Counts L (n + 1) :=
      ⟨hc.assembling, hc.expected, by simp [hc.next, BitVec.ofNat_add]⟩
    obtain ⟨rfl, hc'⟩ := storeAndCheck_counts next hx he
    exact hc'

/-- The same for `RX_FRAME`, which also filters. -/
theorem rxFrame_counts {f : Frame} {s t : State} {e : Event} {L : U16} {n : Nat} (hc : s.ra.Counts L n)
    (hf : isFor s.cfg f → ∀ L' c', decodeKind f.data ≠ .start L' c') (h : exec (.rxFrame f) s = .next t)
    (hr : t.response = some (.event e)) (he : e.harmless) :
    t.ra.Counts L (n + [e].count .stillAssembling) := by
  rcases rxFrame_answers h with ⟨ha, ra, e', hok, rfl⟩ | ⟨-, rfl⟩
  · cases hr
    exact raStep_counts hc (hf ((addressed_iff_isFor _ _).1 ha)) hok he
  · cases hr
    exact hc

/-- Over a run without another start frame the count goes up with the accepted frames. -/
theorem rxAll_counts {fs : List Frame} {s t : State} {es : List Event} {L : U16} {n : Nat} (hc : s.ra.Counts L n)
    (hfs : ∀ g ∈ fs, isFor s.cfg g → ∀ L' c', decodeKind g.data ≠ .start L' c') (h : rxAll s fs = some (es, t))
    (hes : ∀ e ∈ es, e.harmless) : t.ra.Counts L (n + es.count .stillAssembling) := by
  induction fs generalizing s es n with
  | nil => cases h; exact hc
  | cons f fs ih =>
    obtain ⟨u, e, es, hx, hr, hrest, rfl⟩ := rxAll_cons_some h
    rw [List.forall_mem_cons] at hfs hes
    have hu := rxFrame_counts hc hfs.1 hx hr hes.1
    have ht := ih hu (by rw [exec_cfg hx]; exact hfs.2) hrest hes.2
    rwa [Nat.add_assoc, ← List.count_append] at ht

/-- Settles O38: the start frame counts as the first frame, and `rxAll_counts` counts the rest, by induction on the frames. -/
theorem sequenceNumberCountsAcceptedFrames : Obligations.SequenceNumberCountsAcceptedFrames := by
  intro s t f fs es L c _ hk hf hfs h hes
  obtain ⟨u, e, es', hx, hr, hrest, hcons⟩ := rxAll_cons_some h
  cases hcons
  have first : u.ra.Counts L 1 := by
    rcases rxFrame_answers hx with ⟨-, ra, e, hok, rfl⟩ | ⟨ha, -⟩
    · cases hr
      exact raStep_start_counts (hk ▸ hok)
    · exact absurd ((addressed_iff_isFor _ _).2 hf) ha
  obtain ⟨ha, hL, hn⟩ := rxAll_counts first (by rw [exec_cfg hx]; exact hfs) hrest hes
  exact ⟨ha, hL, by rw [hn, BitVec.toNat_ofNat]⟩

/-! ## Buffer bytes without a meaning (R25, R28 item 3) -/

/-- Similar ReassemblyStates are one ReassemblyState with two buffers. -/
theorem ReassemblyState.similar_iff {a b : ReassemblyState} :
    a.Similar b ↔ ∃ m, b = { a with buffer := m } ∧ ∀ i < a.receivedLength.toNat, a.buffer.read i = m.read i := by
  constructor
  · rintro ⟨hs, hm⟩
    cases a; cases b
    simp only [ReassemblyState.status, StatusView.mk.injEq] at hs
    obtain ⟨rfl, rfl, rfl, rfl⟩ := hs
    exact ⟨_, rfl, hm⟩
  · rintro ⟨m, rfl, hm⟩
    exact ⟨rfl, hm⟩

theorem ReassemblyState.Similar.refl (a : ReassemblyState) : a.Similar a := ⟨rfl, fun _ _ => rfl⟩

/-- `Idle` has no byte with a meaning. -/
theorem ReassemblyState.Similar.returnToIdle {a b : ReassemblyState} : (returnToIdle a).Similar (returnToIdle b) :=
  ⟨rfl, fun _ h => absurd h (Nat.not_lt_zero _)⟩

/-- Writing the same bytes at `a` into buffers that agree below `a`: the results agree as far as was written. -/
theorem memWriteAll_agree {cap : Nat} (bs : Bytes) {m n m' : Memory} {a : Nat} (hm : m.wf) (hn : n.wf)
    (hr : ∀ i < a, m.read i = n.read i) (h : memWriteAll cap m a bs = .ok m') :
    ∃ n', memWriteAll cap n a bs = .ok n' ∧ ∀ i < a + bs.length, m'.read i = n'.read i := by
  induction bs generalizing m n a with
  | nil => cases h; exact ⟨n, rfl, hr⟩
  | cons v bs ih =>
    by_cases ha : a < cap
    · simp only [memWriteAll, memWrite_ok ha] at h ⊢
      have written : ∀ i < a + 1, (m.write a v).read i = (n.write a v).read i := fun i hi => by
        rw [Memory.read_write hm, Memory.read_write hn]
        split
        · rfl
        · exact hr i (by omega)
      obtain ⟨n', hn', hr'⟩ := ih (Memory.write_wf hm a v) (Memory.write_wf hn a v) written h
      exact ⟨n', hn', fun i hi => hr' i (by simp only [List.length_cons] at hi; omega)⟩
    · simp [memWriteAll, memWrite, ha] at h

/-- Reads from buffers that agree as far as is read answer alike. -/
theorem memReadAll_agree {cap : Nat} {m n : Memory} (k a : Nat) (hr : ∀ i < a + k, m.read i = n.read i) :
    memReadAll cap m a k = memReadAll cap n a k := by
  induction k generalizing a with
  | zero => rfl
  | succ k ih =>
    have first : memRead cap m a = memRead cap n a := by simp [memRead, hr a (by omega)]
    simp only [memReadAll, first, ih (a + 1) fun i hi => hr i (by omega)]

/-- `r` answers like `r'`: the same event, and ReassemblyStates that differ in meaningless bytes only. -/
def RaResult.Like (r r' : RaResult) : Prop :=
  ∀ a e, r = .ok (a, e) → ∃ a', r' = .ok (a', e) ∧ a.Similar a'

theorem RaResult.Like.of_similar {a b : ReassemblyState} (h : a.Similar b) (e : Event) :
    RaResult.Like (.ok (a, e)) (.ok (b, e)) := by
  intro a' e' hx
  cases hx
  exact ⟨b, rfl, h⟩

theorem raiseAborted_like (e : ReassemblyError) (a b : ReassemblyState) :
    (raiseAborted e a).Like (raiseAborted e b) := .of_similar .returnToIdle _

theorem needed_buffer (a : ReassemblyState) (m : Memory) (c : Bytes) :
    needed { a with buffer := m } c = needed a c := rfl

/-- `StoreChunk` leaves similar ReassemblyStates similar: the bytes that get a meaning are the ones it writes. -/
theorem storeChunk_similar {cfg : Config} {c : Bytes} {a b a' : ReassemblyState} (h : a.Similar b)
    (ha : a.buffer.wf) (hb : b.buffer.wf) (hx : storeChunk cfg c a = .ok a') :
    ∃ b', storeChunk cfg c b = .ok b' ∧ a'.Similar b' := by
  obtain ⟨m, rfl, hm⟩ := ReassemblyState.similar_iff.1 h
  unfold storeChunk at hx
  split at hx
  · rename_i m₁ hw
    cases hx
    obtain ⟨m₂, hw', hr⟩ := memWriteAll_agree _ (n := m) ha hb hm hw
    have grows : (a.receivedLength + BitVec.ofNat 16 (needed a c)).toNat ≤ a.receivedLength.toNat + needed a c := by
      rw [BitVec.toNat_add, BitVec.toNat_ofNat]
      omega
    rw [length_take_needed] at hr
    exact ⟨{ a with buffer := m₂, receivedLength := a.receivedLength + BitVec.ofNat 16 (needed a c) },
      by simp only [storeChunk, needed_buffer, hw'], rfl, fun i hi => hr i (Nat.lt_of_lt_of_le hi grows)⟩
  · cases hx

/-- `CheckComplete` reads only bytes below `receivedLength`. -/
theorem checkComplete_like {cfg : Config} {a b : ReassemblyState} (h : a.Similar b) :
    (checkComplete cfg a).Like (checkComplete cfg b) := by
  obtain ⟨m, rfl, hm⟩ := ReassemblyState.similar_iff.1 h
  by_cases hle : a.expectedLength.toNat ≤ a.receivedLength.toNat
  · have read : memReadAll (capacityOf cfg) a.buffer 0 a.expectedLength.toNat =
        memReadAll (capacityOf cfg) m 0 a.expectedLength.toNat :=
      memReadAll_agree _ 0 fun i hi => hm i (by omega)
    simp only [checkComplete, if_pos hle, read]
    split
    · exact .of_similar .returnToIdle _
    · intro a' e hx
      cases hx
  · simp only [checkComplete, if_neg hle]
    exact .of_similar h _

theorem storeAndCheck_like {cfg : Config} {c : Bytes} {a b : ReassemblyState} (h : a.Similar b)
    (ha : a.buffer.wf) (hb : b.buffer.wf) : (storeAndCheck cfg c a).Like (storeAndCheck cfg c b) := by
  intro a' e hx
  unfold storeAndCheck at hx
  split at hx
  · rename_i a₁ hs
    obtain ⟨b₁, hs', h₁⟩ := storeChunk_similar h ha hb hs
    rw [storeAndCheck, hs']
    exact checkComplete_like h₁ a' e hx
  · cases hx

theorem raStart_like (cfg : Config) (L : U16) (c : Bytes) {a b : ReassemblyState}
    (ha : a.buffer.wf) (hb : b.buffer.wf) : (raStart L c cfg a).Like (raStart L c cfg b) := by
  unfold raStart
  split
  · exact raiseAborted_like _ a b
  · exact storeAndCheck_like ⟨rfl, fun _ hi => absurd hi (Nat.not_lt_zero _)⟩ ha hb

theorem raCont_like (cfg : Config) (q : Byte) (c : Bytes) {a b : ReassemblyState} (h : a.Similar b)
    (ha : a.buffer.wf) (hb : b.buffer.wf) : (raCont q c cfg a).Like (raCont q c cfg b) := by
  obtain ⟨m, rfl, hm⟩ := ReassemblyState.similar_iff.1 h
  unfold raCont
  split
  · exact raiseAborted_like _ _ _
  · split
    · exact raiseAborted_like _ _ _
    · exact storeAndCheck_like ⟨rfl, hm⟩ ha hb

theorem raStep_like (k : FrameKind) (cfg : Config) {a b : ReassemblyState} (h : a.Similar b)
    (ha : a.buffer.wf) (hb : b.buffer.wf) : (raStep k cfg a).Like (raStep k cfg b) := by
  match k with
  | .unknown => exact .of_similar h _
  | .malformed .start => exact raiseAborted_like _ a b
  | .malformed .continuation => exact raiseAborted_like _ a b
  | .start L c => exact raStart_like cfg L c ha hb
  | .continuation q c => exact raCont_like cfg q c h ha hb

theorem rxStep_like (f : Frame) (cfg : Config) {a b : ReassemblyState} (h : a.Similar b)
    (ha : a.buffer.wf) (hb : b.buffer.wf) : (rxStep f cfg a).Like (rxStep f cfg b) := by
  unfold rxStep
  split
  · exact raStep_like _ cfg h ha hb
  · exact .of_similar h _

/-- `r` answers like `r'`: next states that differ in meaningless bytes only. -/
def Result.Like (r r' : Result) : Prop := ∀ t, r = .next t → ∃ t', r' = .next t' ∧ t.Similar t'

theorem Result.Like.of_similar {s s' : State} (h : s.Similar s') : Result.Like (.next s) (.next s') := by
  intro t ht
  cases ht
  exact ⟨s', rfl, h⟩

theorem withFrame_like {n : Nat} {r r' : Result} (h : r.Like r') : (withFrame n r).Like (withFrame n r') := by
  intro t ht
  obtain ⟨hn, hr⟩ := withFrame_next ht
  rw [withFrame_fits hn]
  exact h t hr

section
variable {s s' : State}

theorem respond_similar (h : s.Similar s') (r : Response) : (s.respond r).Similar (s'.respond r) :=
  ⟨h.cfg, h.ra, h.resetDone, h.requests, h.linkRx, rfl⟩

theorem again_similar (h : s.Similar s') (i : Instr) : (s.again i).Similar (s'.again i) :=
  ⟨h.cfg, h.ra, h.resetDone, congrArg (i :: ·) h.requests, h.linkRx, h.response⟩

theorem respondFrame_like (h : s.Similar s') (r : Except Fault Frame) :
    (respondFrame s r).Like (respondFrame s' r) := by
  intro t ht
  obtain ⟨f, rfl, rfl⟩ := respondFrame_next ht
  exact ⟨_, rfl, respond_similar h _⟩

theorem receive_like (h : s.Similar s') {f : Config → ReassemblyState → RaResult}
    (hf : ∀ cfg, (f cfg s.ra).Like (f cfg s'.ra)) : (receive f s).Like (receive f s') := by
  intro t ht
  obtain ⟨hl, ra, e, hok, rfl⟩ := receive_next ht
  obtain ⟨ra', hok', hra⟩ := hf s.cfg ra e hok
  exact ⟨_, receive_of_ok (h.resetDone ▸ hl) (h.cfg ▸ hok'), h.cfg, hra, h.resetDone, h.requests, h.linkRx, rfl⟩

theorem rxFrame_like (h : s.Similar s') (hb : s.ra.buffer.wf) (hb' : s'.ra.buffer.wf) (f : Frame) :
    (rxFrame f s).Like (rxFrame f s') :=
  withFrame_like (receive_like h fun cfg => rxStep_like f cfg h.ra hb hb')

theorem wire_like {i : Instr} {d : Bytes} (hi : wireData i = some d) (h : s.Similar s') (hb : s.ra.buffer.wf)
    (hb' : s'.ra.buffer.wf) : Result.Like (exec i s) (exec i s') := by
  rw [exec_of_wireData hi, exec_of_wireData hi]
  exact withFrame_like (receive_like h fun cfg => raStep_like _ cfg h.ra hb hb')

theorem execSendMsg_like (h : s.Similar s') (d : Nat) (msg : Bytes) :
    (execSendMsg d msg s).Like (execSendMsg d msg s') := by
  simp only [execSendMsg, ← h.cfg]
  split
  · exact .of_similar (respond_similar h _)
  · split
    · exact .of_similar (respond_similar h _)
    · split
      · exact .of_similar (respond_similar h _)
      · intro t ht
        cases ht

theorem execRecvPoll_like (h : s.Similar s') (hb : s.ra.buffer.wf) (hb' : s'.ra.buffer.wf) :
    (execRecvPoll s).Like (execRecvPoll s') := by
  simp only [execRecvPoll, ← h.linkRx]
  split
  · have silent : State.Similar { s with response := none } { s' with linkRx := s.linkRx, response := none } :=
      ⟨h.cfg, h.ra, h.resetDone, h.requests, rfl, rfl⟩
    exact .of_similar (again_similar silent .recvPoll)
  · rename_i f fs _
    have polled : State.Similar { s with linkRx := fs } { s' with linkRx := fs } :=
      ⟨h.cfg, h.ra, h.resetDone, h.requests, rfl, h.response⟩
    exact rxFrame_like (again_similar polled .recvPoll) hb hb' f

/-- Every operation answers similar states alike. -/
theorem exec_like (i : Instr) (h : s.Similar s') (hb : s.ra.buffer.wf) (hb' : s'.ra.buffer.wf) :
    Result.Like (exec i s) (exec i s') := by
  cases i with
  | start L p c => exact wire_like rfl h hb hb'
  | cont q c => exact wire_like rfl h hb hb'
  | malformedStart tail => exact wire_like rfl h hb hb'
  | malformedCont => exact wire_like rfl h hb hb'
  | unknown d => exact wire_like rfl h hb hb'
  | encStart d L c =>
    simp only [exec, execEncStart, ← h.cfg]
    exact respondFrame_like h _
  | encCont d q c =>
    simp only [exec, execEncCont, ← h.cfg]
    exact respondFrame_like h _
  | decodeFrame d => exact withFrame_like (.of_similar (respond_similar h _))
  | rxFrame f => exact rxFrame_like h hb hb' f
  | reset => exact .of_similar ⟨h.cfg, .refl _, rfl, h.requests, h.linkRx, rfl⟩
  | reservedOp op => intro t ht; cases ht
  | sendMsg d msg => exact execSendMsg_like h d msg
  | recvPoll => exact execRecvPoll_like h hb hb'

end

/-- Settles O39: both states idle, or both run the same operation, which answers them alike. -/
theorem staleBufferBytesAreUnobservable : Obligations.StaleBufferBytesAreUnobservable := by
  intro s s' t h hb hb' hx
  obtain ⟨hl, ⟨hr, rfl⟩ | ⟨i, rest, hr, hx⟩⟩ := step_next hx
  · exact ⟨s', step_idle (h.cfg ▸ hl) (h.requests ▸ hr), h⟩
  · rw [step_issue (h.cfg ▸ hl) (h.requests ▸ hr)]
    exact exec_like i (s := { s with requests := rest }) (s' := { s' with requests := rest })
      ⟨h.cfg, h.ra, h.resetDone, rfl, h.linkRx, h.response⟩ hb.canonical hb'.canonical t hx

/-! ## Frames of the step, events and codes -/

/-- Settles O5: every operation keeps the configuration, and a step runs only in a legal one. -/
theorem noStepChangesTheConfiguration : Obligations.NoStepChangesTheConfiguration := by
  intro s t h
  obtain ⟨hl, ⟨-, rfl⟩ | ⟨i, rest, -, hx⟩⟩ := step_next h
  · exact ⟨rfl, hl⟩
  · have hcfg : t.cfg = s.cfg := exec_cfg (s := { s with requests := rest }) hx
    exact ⟨hcfg, hcfg ▸ hl⟩

/-- Settles O11, by whether the step idles, runs `RECV_POLL`, or runs another operation. -/
theorem stepsTakeOperationsAndFramesInOrder : Obligations.StepsTakeOperationsAndFramesInOrder := by
  intro s t h
  obtain ⟨-, ⟨hr, rfl⟩ | ⟨i, rest, hr, hx⟩⟩ := step_next h
  · exact ⟨.inl (by rw [hr]; rfl), .inl rfl⟩
  · by_cases hi : i = .recvPoll
    · subst hi
      obtain ⟨hreq, hrx⟩ := exec_recvPoll_queues hx
      have head : s.requests.head? = some .recvPoll := by rw [hr]; rfl
      exact ⟨.inr ⟨head, hreq.trans hr.symm⟩, .inr ⟨head, hrx⟩⟩
    · obtain ⟨hreq, hrx⟩ := exec_queues hi hx
      exact ⟨.inl (by rw [hreq, hr]; rfl), .inl hrx⟩

/-- Within the invariants, what each event of `RA_STEP` says of the ReassemblyState after it (R31). -/
theorem raStep_event {k : FrameKind} {cfg : Config} {ra ra' : ReassemblyState} {e : Event} (hi : ra.Inv cfg)
    (h : raStep k cfg ra = .ok (ra', e)) :
    (e = .ignored ∧ ra' = ra) ∨ (∃ r, e = .aborted r ∧ ra'.status = .idle) ∨
    (e = .stillAssembling ∧ ra'.assembling = true) ∨
    ∃ m, e = .complete m ∧ ra'.status = .idle ∧ m.length ≤ cfg.capacity.toNat := by
  rcases raStep_next h with ⟨rfl, rfl, -⟩ | ⟨r, rfl, rfl, -⟩ | ⟨L, c, -, hL, hx⟩ | ⟨q, c, -, has, -, hx⟩
  · exact .inl ⟨rfl, rfl⟩
  · exact .inr (.inl ⟨r, rfl, rfl⟩)
  · rcases storeAndCheck_next hx with ⟨rfl, ha, -⟩ | ⟨m, rfl, hs, hm⟩
    · exact .inr (.inr (.inl ⟨rfl, ha⟩))
    · exact .inr (.inr (.inr ⟨m, rfl, hs, hm.trans_le hL⟩))
  · rcases storeAndCheck_next hx with ⟨rfl, ha, -⟩ | ⟨m, rfl, hs, hm⟩
    · exact .inr (.inr (.inl ⟨rfl, ha.trans has⟩))
    · exact .inr (.inr (.inr ⟨m, rfl, hs, hm.trans_le hi.fits⟩))

/-- Settles O32: the event is `RA_STEP`'s or the filter's. -/
theorem eventTellsTheStateAfter : Obligations.EventTellsTheStateAfter := by
  intro s t i e hs h hr
  cases exec_effect h with
  | given d e' _ hok hr' =>
    cases hr.symm.trans hr'
    rcases raStep_event hs.inv hok with ⟨rfl, hra⟩ | ⟨r, rfl, hst⟩ | ⟨rfl, ha⟩ | ⟨m, rfl, hst, hm⟩
    · simp [hra]
    · simp [State.raStatus, hst, StatusView.idle]
    · simp [ha]
    · simp [State.raStatus, hst, StatusView.idle, hm]
  | filtered hra hr' =>
    cases hr.symm.trans hr'
    simp [hra]
  | reset _ hr' => cases hr.symm.trans hr'
  | apart _ hne => exact absurd hr (hne e)

/-- Settles O33: of the effects only `RESET` and a frame given to `RA_STEP` touch ReassemblyState, and an unknown frame does not. -/
theorem onlyResetAndReceivedFramesChangeReassemblyState :
    Obligations.OnlyResetAndReceivedFramesChangeReassemblyState := by
  intro s t i h hne
  cases exec_effect h with
  | given d e hd hok _ =>
    refine .inr ⟨d, hd, fun hk => hne ?_⟩
    rw [hk] at hok
    obtain ⟨hra, -⟩ := Prod.mk.inj (Except.ok.inj hok)
    exact hra.symm
  | filtered hra _ => exact absurd hra hne
  | reset hi _ => exact .inl hi
  | apart hra _ => exact absurd hra hne

/-- Settles O2: the reset buffer lists nothing, and an unlisted byte reads 0. -/
theorem resetStateHasTheSpecsValues : Obligations.ResetStateHasTheSpecsValues :=
  ⟨rfl, rfl, Memory.read_nil⟩

/-- Settles O3: the reset state is Ready, and its configuration is legal. -/
theorem resetStateMeetsTheInvariant : Obligations.ResetStateMeetsTheInvariant :=
  ⟨⟨by decide, reset_ready.buffer, fun _ => reset_ready.inv⟩, reset_ready⟩

/-- Settles O10, from what `fetch` takes in each case. -/
theorem stepRunsTheDecodedRequest : Obligations.StepRunsTheDecodedRequest := by
  intro s hl
  refine ⟨step_idle hl, fun i rest => step_issue hl, fun nbits w i h => ?_⟩
  rw [withFetchWord_of_decodes h]
  exact step_issue (s := { s with requests := [i] }) hl rfl

theorem errorCode_eq_zero_iff (e : Event) : e.errorCode = 0 ↔ e.code ≠ 2 := by
  cases e with
  | aborted r => cases r <;> simp [Event.errorCode, Event.code, ReassemblyError.code]
  | stillAssembling => simp [Event.errorCode, Event.code]
  | complete m => simp [Event.errorCode, Event.code]
  | ignored => simp [Event.errorCode, Event.code]
  | filtered => simp [Event.errorCode, Event.code]

/-- Settles O52: each code is read off its table, and `errorCode_eq_zero_iff` is the clause on error codes. -/
theorem outcomeCodes : Obligations.OutcomeCodes :=
  ⟨rfl, fun _ => rfl, fun _ => rfl, rfl, rfl, rfl, rfl, rfl, rfl, errorCode_eq_zero_iff, fun _ _ => rfl, fun _ _ => rfl,
    rfl, fun _ => rfl, rfl, rfl, rfl, rfl, rfl⟩

end Sys2Proof.Machine

/-! # Memory: which operations fault, where a frame writes, and what repeating an operation does -/

namespace Sys2Proof.Machine

open Sys2Proof

/-! ## Faults (R41, R94, R145, R146) -/

theorem withFrame_fault {n : Nat} {k : Result} {r : Fault} (h : withFrame n k = .fault r) : k = .fault r := by
  unfold withFrame at h
  split at h
  · exact h
  · cases h

theorem respondFrame_fault {s : State} {x : Except Fault Frame} {r : Fault} (h : respondFrame s x = .fault r) :
    x = .error r := by
  cases x with
  | ok f => cases h
  | error e => cases h; rfl

/-- The encoder's frame fails for one of the two reasons of its contract (R94). -/
theorem buildFrame_error {cfg : Config} {dest : Dest} {n : Nat} {chunk d : Bytes} {r : Fault}
    (h : buildFrame cfg dest n chunk d = .error r) : r = .encChunkTooLong ∨ r = .encBadDest := by
  rcases buildFrame_cases cfg dest n chunk d with ⟨-, hx⟩ | ⟨-, -, hx⟩ | ⟨-, -, hx⟩
  · cases hx.symm.trans h; exact .inl rfl
  · cases hx.symm.trans h; exact .inr rfl
  · cases hx.symm.trans h

/-- Giving the reassembler a frame does not fault when its step answers. -/
theorem receive_ne_fault {f : Config → ReassemblyState → RaResult} {s : State}
    (hg : RaResult.Good s.cfg (f s.cfg s.ra)) (r : Fault) : receive f s ≠ .fault r := by
  obtain ⟨ra, e, hok, -⟩ := hg
  cases hl : s.resetDone with
  | true => rw [receive_of_ok hl hok]; nofun
  | false => rw [receive_before_reset hl]; nofun

theorem wire_ne_fault {i : Instr} {d : Bytes} {s : State} (hi : wireData i = some d) (hs : s.Ready) (r : Fault) :
    exec i s ≠ .fault r := by
  rw [exec_of_wireData hi]
  exact fun h => receive_ne_fault (raStep_good _ hs.inv hs.buffer) r (withFrame_fault h)

theorem rxFrame_ne_fault {s : State} (hs : s.Ready) (f : Frame) (r : Fault) : rxFrame f s ≠ .fault r :=
  fun h => receive_ne_fault (rxStep_good f hs.inv hs.buffer) r (withFrame_fault h)

theorem execSendMsg_ne_fault (dest : Nat) (msg : Bytes) (s : State) (r : Fault) :
    execSendMsg dest msg s ≠ .fault r := by
  rcases execSendMsg_cases dest msg s with ⟨-, hx⟩ | ⟨-, -, hx⟩ | ⟨-, -, fs, -, hx⟩
  all_goals rw [hx]; nofun

theorem execRecvPoll_ne_fault {s : State} (hs : s.Ready) (r : Fault) : execRecvPoll s ≠ .fault r := by
  unfold execRecvPoll
  split
  · nofun
  · rename_i f fs _
    have ready : (State.again { s with linkRx := fs } .recvPoll).Ready := ⟨hs.launched, hs.inv, hs.buffer⟩
    exact rxFrame_ne_fault ready f r

/-- Settles O34: a frame given to the reassembler is answered within the invariants, `SEND_MSG` checks the encoder's contract
first, and the encoder operations fault only as `buildFrame` does. -/
theorem onlyTheEncoderFaults : Obligations.OnlyTheEncoderFaults := by
  intro s i r hs h
  cases i with
  | start L p c => exact absurd h (wire_ne_fault rfl hs r)
  | cont q c => exact absurd h (wire_ne_fault rfl hs r)
  | malformedStart tail => exact absurd h (wire_ne_fault rfl hs r)
  | malformedCont => exact absurd h (wire_ne_fault rfl hs r)
  | unknown d => exact absurd h (wire_ne_fault rfl hs r)
  | encStart d L c => exact ⟨.inl ⟨d, L, c, rfl⟩, buildFrame_error (respondFrame_fault h)⟩
  | encCont d q c => exact ⟨.inr ⟨d, q, c, rfl⟩, buildFrame_error (respondFrame_fault h)⟩
  | decodeFrame d => cases withFrame_fault h
  | rxFrame f => exact absurd h (rxFrame_ne_fault hs f r)
  | reset => cases h
  | reservedOp op => cases h
  | sendMsg d msg => exact absurd h (execSendMsg_ne_fault d msg s r)
  | recvPoll => exact absurd h (execRecvPoll_ne_fault hs r)

/-! ## Where a received frame writes (R49, R113) -/

/-- Storing and checking change bytes from `receivedLength` up to `expectedLength` only. -/
theorem storeAndCheck_writes {cfg : Config} {ra ra' : ReassemblyState} {c : Bytes} {e : Event} {a : Nat}
    (hfits : ra.expectedLength.toNat ≤ cfg.capacity.toNat) (hle : ra.receivedLength.toNat ≤ ra.expectedLength.toNat)
    (hb : ra.buffer.Ok cfg) (h : storeAndCheck cfg c ra = .ok (ra', e))
    (hne : ra'.buffer.read a ≠ ra.buffer.read a) :
    ra.receivedLength.toNat ≤ a ∧ a < ra.expectedLength.toNat := by
  by_contra hout
  by_cases hw : ra.expectedLength.toNat ≤ ra.receivedLength.toNat + c.length
  · obtain ⟨m, hm, -, hr⟩ := storeAndCheck_whole hfits hle hb hw
    cases hm.symm.trans h
    exact hne ((hr a).trans (if_neg hout))
  · obtain ⟨m, hm, -, hr⟩ := storeAndCheck_still hfits hb (Nat.lt_of_not_le hw)
    cases hm.symm.trans h
    exact hne ((hr a).trans (if_neg (by omega)))

/-- `RA_STEP` changes a byte only for an accepted frame: below the declared length of a start frame that fits `CAPACITY`, or in
the part of the message a continuation frame's message still lacks. -/
theorem raStep_writes {k : FrameKind} {cfg : Config} {ra ra' : ReassemblyState} {e : Event} {a : Nat}
    (hi : ra.Inv cfg) (hb : ra.buffer.Ok cfg) (h : raStep k cfg ra = .ok (ra', e))
    (hne : ra'.buffer.read a ≠ ra.buffer.read a) :
    (∃ L c, k = .start L c ∧ a < L.toNat ∧ L.toNat ≤ cfg.capacity.toNat) ∨
    ∃ q c, k = .continuation q c ∧ ra.receivedLength.toNat ≤ a ∧ a < ra.expectedLength.toNat := by
  rcases raStep_next h with ⟨-, rfl, -⟩ | ⟨r, -, rfl, -⟩ | ⟨L, c, rfl, hL, hx⟩ | ⟨q, c, rfl, -, -, hx⟩
  · exact absurd rfl hne
  · exact absurd rfl hne
  · obtain ⟨-, ha⟩ := storeAndCheck_writes
      (ra := { ra with expectedLength := L, receivedLength := 0, nextSeq := 1, assembling := true })
      hL (Nat.zero_le _) hb hx hne
    exact .inl ⟨L, c, rfl, ha, hL⟩
  · have hw := storeAndCheck_writes (ra := { ra with nextSeq := ra.nextSeq + 1 }) hi.fits hi.bounded hb hx hne
    exact .inr ⟨q, c, rfl, hw⟩

/-- Settles O35: a filtered frame writes nothing, and `RA_STEP` writes where `raStep_writes` says. -/
theorem writesStayBelowTheExpectedLength : Obligations.WritesStayBelowTheExpectedLength := by
  intro s t f a hs h hne
  rcases rxFrame_answers h with ⟨-, ra, e, hok, rfl⟩ | ⟨-, rfl⟩
  · rcases raStep_writes hs.inv hs.buffer hok hne with ⟨L, c, hk, ha, hL⟩ | ⟨q, c, hk, hlo, hhi⟩
    · simp [hk, ha, Nat.lt_of_lt_of_le ha hL]
    · simp [hk, hlo, hhi, Nat.lt_of_lt_of_le hhi hs.inv.fits]
  · exact absurd rfl hne

/-! ## Repeated operations (R48) -/

/-- A continuation frame answered `StillAssembling` carried `nextSeq`, and leaves the machine `Assembling` and waiting for the
number after it. -/
theorem raStep_cont_still {q : Byte} {c : Bytes} {cfg : Config} {ra ra' : ReassemblyState}
    (h : raStep (.continuation q c) cfg ra = .ok (ra', .stillAssembling)) :
    ra'.assembling = true ∧ ra'.nextSeq = q + 1 := by
  rcases raStep_next h with ⟨he, -⟩ | ⟨r, he, -⟩ | ⟨L, c', hk, -⟩ | ⟨q', c', hk, has, hq, hx⟩
  · cases he
  · cases he
  · cases hk
  · cases hk
    rcases storeAndCheck_next hx with ⟨-, ha, -, hn⟩ | ⟨m, he, -⟩
    · exact ⟨ha.trans has, by rw [hn, hq]⟩
    · cases he

/-- R117: a continuation frame with another number than the awaited one. -/
theorem raStep_cont_mismatch {q : Byte} {ra : ReassemblyState} (has : ra.assembling = true) (hq : q ≠ ra.nextSeq)
    (c : Bytes) (cfg : Config) :
    raStep (.continuation q c) cfg ra = .ok (returnToIdle ra, .aborted .sequenceMismatch) := by
  show raCont q c cfg ra = _
  rw [raCont, if_neg (by simp [has]), if_pos hq]
  rfl

/-- No sequence number is its own successor, also where it wraps (R24). -/
theorem byte_ne_add_one (q : Byte) : q ≠ q + 1 := by bv_omega

/-- Settles O37: the accepted frame moves `nextSeq` past its own number, so its repetition is out of sequence. -/
theorem repeatedContinuationIsOutOfSequence : Obligations.RepeatedContinuationIsOutOfSequence := by
  intro s t q c hs h hr
  have hx : wireFrame (contData q c) s = .next t := h
  obtain ⟨ra, e, hok, rfl⟩ := wireFrame_answers hx
  cases hr
  rw [decodeKind_contData] at hok
  obtain ⟨has, hn⟩ := raStep_cont_still hok
  have again := raStep_cont_mismatch has (hn ▸ byte_ne_add_one q) c s.cfg
  rw [← decodeKind_contData] at again
  have answer := receive_of_ok (s := { s with ra := ra, response := some (.event .stillAssembling) }) hs.launched again
  rw [← wireFrame_fits (wireFrame_next hx).1] at answer
  exact ⟨_, answer, rfl, rfl⟩

/-- Answering with the same frame again changes nothing more. -/
theorem respondFrame_repeat {s t : State} {x : Except Fault Frame} (h : respondFrame s x = .next t) :
    respondFrame t x = .next t := by
  obtain ⟨f, rfl, rfl⟩ := respondFrame_next h
  rfl

/-- Settles O19: the three operations read the configuration only and answer with `State.respond`, which overwrites. -/
theorem encoderAndDecoderAreIdempotent : Obligations.EncoderAndDecoderAreIdempotent := by
  rintro s t i (⟨d, L, c, rfl⟩ | ⟨d, q, c, rfl⟩ | ⟨d, rfl⟩) h
  · obtain ⟨f, -, rfl⟩ := respondFrame_next h
    exact ⟨rfl, respondFrame_repeat h⟩
  · obtain ⟨f, -, rfl⟩ := respondFrame_next h
    exact ⟨rfl, respondFrame_repeat h⟩
  · obtain ⟨hd, hx⟩ := withFrame_next h
    cases hx
    exact ⟨rfl, withFrame_fits hd _⟩

end Sys2Proof.Machine

/-! # Encodings: requests as bytes, the map of frame classes, and what the boundary refuses -/

namespace Sys2Proof.Machine

open Sys2Proof

/-! ## Wire frames as instructions (R66) -/

/-- A wire instruction's request is its frame's, whatever its row. -/
theorem request_of_wireData {i : Instr} {d : Bytes} (h : wireData i = some d) :
    i.selector = .wire ∧ encodeOperands i = countedBytes d := by
  cases i <;> cases h <;> exact ⟨rfl, rfl⟩

/-- Every frame gives a well-formed instruction. -/
theorem wireInstr_wf {d : Bytes} (h : d.length ≤ 8) : (wireInstr d).wf = true := by
  rcases frameData_cases d with rfl | ⟨t, ht, rfl⟩ | ⟨lo, hi, p, c, rfl⟩ | rfl | ⟨q, c, rfl⟩ | ⟨b, t, ha, hc, rfl⟩
  · rfl
  · rw [wireInstr_shortStart ht, wf_malformedStart]; omega
  · rw [wireInstr_start, wf_start]; simp only [List.length_cons] at h; omega
  · rfl
  · rw [wireInstr_cont, wf_cont]; simp only [List.length_cons] at h; omega
  · rw [wireInstr_other ha hc, wf_unknown_cons]; exact ⟨h, ha, hc⟩

/-- A well-formed wire instruction carries a frame, and it is the instruction of that frame. -/
theorem wireInstr_of_wireData {i : Instr} {d : Bytes} (hi : wireData i = some d) (hw : i.wf = true) :
    d.length ≤ 8 ∧ wireInstr d = i := by
  cases i with
  | start L p c =>
    cases hi
    have hc := (wf_start L p c).1 hw
    refine ⟨by rw [length_startData]; omega, ?_⟩
    show wireInstr (0xAA#8 :: loByte L :: hiByte L :: p :: c) = _
    rw [wireInstr_start, joinBytes_lo_hi]
  | cont q c =>
    cases hi
    have hc := (wf_cont q c).1 hw
    exact ⟨by rw [length_contData]; omega, wireInstr_cont q c⟩
  | malformedStart t =>
    cases hi
    have ht := (wf_malformedStart t).1 hw
    exact ⟨by rw [List.length_cons]; omega, wireInstr_shortStart (by omega)⟩
  | malformedCont => cases hi; exact ⟨by decide, wireInstr_shortCont⟩
  | unknown data =>
    cases hi
    cases d with
    | nil => exact ⟨by decide, wireInstr_nil⟩
    | cons b t =>
      obtain ⟨hl, ha, hc⟩ := (wf_unknown_cons b t).1 hw
      exact ⟨hl, wireInstr_other ha hc t⟩
  | encStart _ _ _ => cases hi
  | encCont _ _ _ => cases hi
  | decodeFrame _ => cases hi
  | rxFrame _ => cases hi
  | reset => cases hi
  | reservedOp _ => cases hi
  | sendMsg _ _ => cases hi
  | recvPoll => cases hi

/-! ## Decoding what was encoded -/

/-- The leading byte of a well-formed instruction's request selects its operation (R76). -/
theorem ofByte_selector_code {i : Instr} (hw : i.wf = true) : Selector.ofByte i.selector.code = some i.selector := by
  cases i with
  | reservedOp op => exact Laws.SelectorReadsBack.reservedOp op hw
  | _ => rfl

theorem decodeOperands_wire {i : Instr} {d : Bytes} (hi : wireData i = some d) (hw : i.wf = true) (rest : Bytes) :
    decodeOperands i.selector (encodeOperands i ++ rest) = .ok (i, rest) := by
  obtain ⟨hsel, hops⟩ := request_of_wireData hi
  obtain ⟨hd, hwire⟩ := wireInstr_of_wireData hi hw
  rw [hsel, hops, decodeOperands, andThen_ok (takeData_counted hd rest), hwire, done_apply]

/-- The operands of a well-formed instruction are read back by the parsers of its selector. -/
theorem decodeOperands_encodeOperands {i : Instr} (hw : i.wf = true) (rest : Bytes) :
    decodeOperands i.selector (encodeOperands i ++ rest) = .ok (i, rest) := by
  cases i with
  | start L p c => exact decodeOperands_wire rfl hw rest
  | cont q c => exact decodeOperands_wire rfl hw rest
  | malformedStart t => exact decodeOperands_wire rfl hw rest
  | malformedCont => exact decodeOperands_wire rfl hw rest
  | unknown d => exact decodeOperands_wire rfl hw rest
  | encStart dest L c =>
    simp only [Instr.selector, encodeOperands, decodeOperands, List.cons_append]
    rw [andThen_ok (takeDest_cons dest _), andThen_ok (takeU16_cons L _),
      andThen_ok (takeChunk_counted ((wf_encStart dest L c).1 hw) rest), done_apply]
  | encCont dest q c =>
    simp only [Instr.selector, encodeOperands, decodeOperands, List.cons_append]
    rw [andThen_ok (takeDest_cons dest _), andThen_ok (takeByte_cons q _),
      andThen_ok (takeChunk_counted ((wf_encCont dest q c).1 hw) rest), done_apply]
  | decodeFrame d =>
    simp only [Instr.selector, encodeOperands, decodeOperands]
    rw [andThen_ok (takeData_counted ((wf_decodeFrame d).1 hw) rest), done_apply]
  | rxFrame f =>
    simp only [Instr.selector, encodeOperands, decodeOperands, List.append_assoc]
    rw [andThen_ok (takeId_append f.id _), andThen_ok (takeData_counted ((wf_rxFrame f).1 hw) rest), done_apply]
  | reset => rfl
  | reservedOp op => rfl
  | sendMsg dest msg =>
    obtain ⟨hdest, hmsg⟩ := (wf_sendMsg dest msg).1 hw
    simp only [Instr.selector, encodeOperands, decodeOperands, List.append_assoc]
    rw [andThen_ok (takeNat_append hdest _), andThen_ok (takeNat_append hmsg _),
      andThen_ok (takeBytes_append rfl rest), done_apply]
  | recvPoll => rfl

/-- Settles O6: the leading byte selects the operation, and its parsers read the operands back. -/
theorem decodingAnEncodingGivesTheInstruction : Obligations.DecodingAnEncodingGivesTheInstruction := by
  intro i rest hw
  rw [encode, List.cons_append, decode_cons (ofByte_selector_code hw)]
  exact decodeOperands_encodeOperands hw rest

/-! ## Encoding what was decoded -/

/-- Everything the parsers of a selector can answer: a well-formed instruction of that selector, from its encoded operands. -/
theorem decodeOperands_eq_ok {sel : Selector} {bs rest : Bytes} {i : Instr} (hsel : Selector.ofByte sel.code = some sel)
    (h : decodeOperands sel bs = .ok (i, rest)) :
    i.wf = true ∧ i.selector = sel ∧ bs = encodeOperands i ++ rest := by
  cases sel with
  | encStart =>
    obtain ⟨dest, _, hdest, h⟩ := andThen_eq_ok h
    obtain ⟨L, _, hL, h⟩ := andThen_eq_ok h
    obtain ⟨c, _, hc, h⟩ := andThen_eq_ok h
    obtain ⟨rfl, rfl⟩ := done_eq_ok h
    obtain ⟨hlen, rfl⟩ := takeChunk_eq_ok hc
    exact ⟨(wf_encStart dest L c).2 hlen, rfl, by rw [takeDest_eq_ok hdest, takeU16_eq_ok hL]; rfl⟩
  | encCont =>
    obtain ⟨dest, _, hdest, h⟩ := andThen_eq_ok h
    obtain ⟨q, _, hq, h⟩ := andThen_eq_ok h
    obtain ⟨c, _, hc, h⟩ := andThen_eq_ok h
    obtain ⟨rfl, rfl⟩ := done_eq_ok h
    obtain ⟨hlen, rfl⟩ := takeChunk_eq_ok hc
    exact ⟨(wf_encCont dest q c).2 hlen, rfl, by rw [takeDest_eq_ok hdest, takeByte_eq_ok hq]; rfl⟩
  | decodeFrame =>
    obtain ⟨d, _, hd, h⟩ := andThen_eq_ok h
    obtain ⟨rfl, rfl⟩ := done_eq_ok h
    obtain ⟨hlen, rfl⟩ := takeData_eq_ok hd
    exact ⟨(wf_decodeFrame d).2 hlen, rfl, rfl⟩
  | rxFrame =>
    obtain ⟨id, _, hid, h⟩ := andThen_eq_ok h
    obtain ⟨d, _, hd, h⟩ := andThen_eq_ok h
    obtain ⟨rfl, rfl⟩ := done_eq_ok h
    obtain ⟨hlen, rfl⟩ := takeData_eq_ok hd
    exact ⟨(wf_rxFrame ⟨id, d⟩).2 hlen, rfl, by rw [takeId_eq_ok hid, encodeOperands, List.append_assoc]⟩
  | reset =>
    obtain ⟨rfl, rfl⟩ := done_eq_ok h
    exact ⟨rfl, rfl, rfl⟩
  | reserved op =>
    obtain ⟨rfl, rfl⟩ := done_eq_ok h
    exact ⟨(wf_reservedOp op).2 (ofByte_reserved hsel), rfl, rfl⟩
  | wire =>
    obtain ⟨d, _, hd, h⟩ := andThen_eq_ok h
    obtain ⟨rfl, rfl⟩ := done_eq_ok h
    obtain ⟨hlen, rfl⟩ := takeData_eq_ok hd
    obtain ⟨hw, hops⟩ := request_of_wireData (wireData_wireInstr d)
    exact ⟨wireInstr_wf hlen, hw, by rw [hops]⟩
  | sendMsg =>
    obtain ⟨dest, _, hdest, h⟩ := andThen_eq_ok h
    obtain ⟨n, _, hn, h⟩ := andThen_eq_ok h
    obtain ⟨msg, _, hmsg, h⟩ := andThen_eq_ok h
    obtain ⟨rfl, rfl⟩ := done_eq_ok h
    obtain ⟨hd, rfl⟩ := takeNat_eq_ok hdest
    obtain ⟨hl, rfl⟩ := takeNat_eq_ok hn
    obtain ⟨rfl, rfl⟩ := takeBytes_eq_ok hmsg
    exact ⟨(wf_sendMsg dest msg).2 ⟨hd, hl⟩, rfl, by simp only [encodeOperands, List.append_assoc]⟩
  | recvPoll =>
    obtain ⟨rfl, rfl⟩ := done_eq_ok h
    exact ⟨rfl, rfl, rfl⟩

/-- Settles O7: the leading byte is the code of the selector it selects, and the operands are encoded ones. -/
theorem decodedBytesAreTheEncoding : Obligations.DecodedBytesAreTheEncoding := by
  intro bs rest i h
  obtain ⟨sel, mid, hsel, rfl, hops⟩ := decode_eq_ok h
  obtain ⟨hw, rfl, rfl⟩ := decodeOperands_eq_ok hsel hops
  exact ⟨hw, rfl⟩

/-! ## The map of frame classes (R66) and written-out words -/

theorem joinBytes_eq_ofNat (lo hi : Byte) : joinBytes lo hi = BitVec.ofNat 16 (lo.toNat + 256 * hi.toNat) := by
  rw [← joinBytes_toNat, BitVec.ofNat_toNat, BitVec.setWidth_eq]

/-- The request that carries a frame: the code of the model's own (log 2), the length, the data. -/
theorem encode_wireInstr (d : Bytes) : encode (wireInstr d) = 0x08#8 :: BitVec.ofNat 8 d.length :: d := by
  obtain ⟨hsel, hops⟩ := request_of_wireData (wireData_wireInstr d)
  rw [encode, hsel, hops]; rfl

/-- Settles O8: each row is `wireInstr` on that shape, and the request clause is O6 for the frame's instruction. -/
theorem frameMapSelectsEveryWireClass : Obligations.FrameMapSelectsEveryWireClass := by
  refine ⟨wireInstr_nil, fun t ht => wireInstr_shortStart (by omega), fun lo hi p c _ => ?_, wireInstr_shortCont,
    fun q c _ => wireInstr_cont q c, fun b t _ ha hc => wireInstr_other ha hc t, fun d rest hd => ⟨wireInstr_wf hd, ?_⟩⟩
  · rw [wireInstr_start, joinBytes_eq_ofNat]
  · have h := decodingAnEncodingGivesTheInstruction (wireInstr d) rest (wireInstr_wf hd)
    rwa [encode_wireInstr] at h

/-- Settles O9: fixed words, each read by running the decoder. -/
theorem writtenOutWordsDecode : Obligations.WrittenOutWordsDecode := by
  unfold Obligations.WrittenOutWordsDecode
  decide

/-- Settles O13: the code of a reserved operation is its request, which O6 reads back. -/
theorem reservedSelectorsAreRefused : Obligations.ReservedSelectorsAreRefused := by
  refine ⟨fun b rest h5 h7 => ?_, fun _ _ => rfl, fun s op rest hl hr => step_issue hl hr⟩
  have hop : (b.setWidth 3).toNat = b.toNat := by rw [BitVec.toNat_setWidth]; omega
  have hcode : (b.setWidth 3).setWidth 8 = b := by
    apply BitVec.eq_of_toNat_eq
    rw [BitVec.toNat_setWidth, hop]; omega
  have h : decode ((b.setWidth 3).setWidth 8 :: rest) = .ok (.reservedOp (b.setWidth 3), rest) :=
    decodingAnEncodingGivesTheInstruction (.reservedOp (b.setWidth 3)) rest ((wf_reservedOp _).2 (by omega))
  rw [hcode] at h
  exact ⟨_, hop, h⟩

/-! ## Refusals at the boundary (R72, R33, R173) -/

theorem andThen_error {α β : Type} {p : Parser α} {bs : Bytes} {e : DecodeError} (h : p bs = .error e)
    (k : α → Parser β) : Parser.andThen p k bs = .error e := by
  rw [Parser.andThen, h]

/-- Two bytes whose upper five bits are zero are an identifier. -/
theorem takeId_cons {hi : Byte} (lo : Byte) (h : hi.toNat < 8) (rest : Bytes) :
    ∃ id, takeId (lo :: hi :: rest) = .ok (id, rest) := by
  have hlt : bytesToNat [lo, hi] < 2048 := by
    have := lo.isLt
    simp only [bytesToNat]; omega
  have hid := takeId_append (BitVec.ofNat lit.idWidth (bytesToNat [lo, hi])) rest
  have hbytes : natToBytes 2 (bytesToNat [lo, hi]) = [lo, hi] := natToBytes_bytesToNat [lo, hi]
  rw [BitVec.toNat_ofNat, Nat.mod_eq_of_lt (by simpa using hlt), hbytes] at hid
  exact ⟨_, hid⟩

theorem illegal_of {c : Config} (h : c.selfId.toNat = 0 ∨ 5 < c.selfId.toNat ∨ c.capacity = 0) : ¬ c.legal := by
  rintro ⟨hid, hcap⟩
  obtain ⟨hmin, hmax⟩ := (legal_iff c.selfId).1 hid
  rcases h with h | h | h
  · omega
  · omega
  · rw [h] at hcap; exact absurd hcap (by decide)

theorem exec_wire_reserved {i : Instr} {d : Bytes} (hi : wireData i = some d) (hd : 8 < d.length) (s : State) :
    exec i s = .refused .reservedFrameLength := by
  rw [exec_of_wireData hi, wireFrame_reserved hd]

/-- No operation takes a frame of more than 8 bytes (R72; log 19). -/
theorem exec_reservedFrame {i : Instr} {d : Bytes} (hd : 8 < d.length)
    (hi : i = .decodeFrame d ∨ (∃ id, i = .rxFrame ⟨id, d⟩) ∨ wireData i = some d) (s : State) :
    exec i s = .refused .reservedFrameLength := by
  rcases hi with rfl | ⟨id, rfl⟩ | hi
  · exact withFrame_reserved hd _
  · exact withFrame_reserved hd _
  · exact exec_wire_reserved hi hd s

/-- Settles O12: the decoder stops at the length byte, and `fetch` and `withFrame` refuse before anything runs. -/
theorem boundaryRefusesReservedLengthsAndConfigurations :
    Obligations.BoundaryRefusesReservedLengthsAndConfigurations := by
  refine ⟨?decodeOrWire, ?rxFrame, ?configuration, fun s d hd => withFrame_reserved hd _,
    fun s f hd => withFrame_reserved hd _, ?recvPoll, fun s L p c hc => ?start, fun s q c hc => ?cont,
    fun s t ht => ?malformedStart, fun s d hd => exec_wire_reserved rfl hd s, ?aStep⟩
  case decodeOrWire =>
    rintro b n rest (rfl | rfl) h9 -
    · exact andThen_error (takeData_reserved h9 rest) _
    · exact andThen_error (takeData_reserved h9 rest) _
  case rxFrame =>
    intro lo hi n rest hhi h9 _
    obtain ⟨id, hid⟩ := takeId_cons lo hhi (n :: rest)
    rw [decode_cons (sel := .rxFrame) rfl, decodeOperands, andThen_ok hid]
    exact andThen_error (takeData_reserved h9 rest) _
  case configuration =>
    intro s h
    rw [step, fetch_illegal (illegal_of h)]; rfl
  case recvPoll =>
    intro s f fs hl hf
    show execRecvPoll s = _
    rw [execRecvPoll, hl]
    exact withFrame_reserved hf _
  case start => exact exec_wire_reserved (d := startData L p c) rfl (by rw [length_startData]; omega) s
  case cont => exact exec_wire_reserved (d := contData q c) rfl (by rw [length_contData]; omega) s
  case malformedStart => exact exec_wire_reserved (d := 0xAA#8 :: t) rfl (by rw [List.length_cons]; omega) s
  case aStep =>
    intro s i d rest hl hd hr hi
    rw [step_issue hl hr]
    exact exec_reservedFrame hd hi _

/-! ## Byte 3 of a start frame (R70) -/

/-- Of a wire frame only the length and the kind take part. -/
theorem wireFrame_congr {d d' : Bytes} (hlen : d.length = d'.length) (hkind : decodeKind d = decodeKind d') (s : State) :
    wireFrame d s = wireFrame d' s := by
  rw [wireFrame, wireFrame, hlen, hkind]

/-- Settles O18: the kind of a start frame does not hold byte 3. -/
theorem placeholderIsIgnored : Obligations.PlaceholderIsIgnored := by
  refine ⟨fun s L p p' c => wireFrame_congr ?_ ?_ s, fun s lo hi p p' c => ?_⟩
  · rw [length_startData, length_startData]
  · rw [decodeKind_startData, decodeKind_startData]
  · show execDecodeFrame _ s = execDecodeFrame _ s
    rw [execDecodeFrame, execDecodeFrame, decodeKind_start, decodeKind_start]; rfl

end Sys2Proof.Machine

/-! # The pseudo-operations: the frames of `SEND_MSG`, their reassembly, and the polling node -/

namespace Sys2Proof.Machine

open Sys2Proof

/-! ## `SEND_MSG` (R80) -/

/-- Settles O48: the two checks of R80, in the model's order (log 7). -/
theorem sendMsgRejectsWithoutSideEffects : Obligations.SendMsgRejectsWithoutSideEffects := by
  refine fun s dest msg => ⟨fun h => ?_, fun h1 h5 hlen => ?_⟩
  · have hd : ¬ legalDestination dest := fun ⟨hmin, hmax⟩ => by simp at hmin hmax; omega
    exact if_pos hd
  · have hd : legalDestination dest := ⟨h1, h5⟩
    exact (if_neg (not_not_intro hd)).trans (if_pos hlen)

/-- The start frame of `SEND_MSG`. -/
def startFrame (cfg : Config) (dest : Dest) (msg : Bytes) : Frame :=
  ⟨idOf dest, paddedTo8 cfg (startData (BitVec.ofNat 16 msg.length) 0 (msg.take 4))⟩

/-- The continuation frame number `j`, from 0 up, of the loop of `SEND_MSG` that has the bytes `rest` to send and starts at
sequence number `q`. -/
def contFrame (cfg : Config) (dest : Dest) (rest : Bytes) (q : Byte) (j : Nat) : Frame :=
  ⟨idOf dest, paddedTo8 cfg (contData (q + BitVec.ofNat 8 j) ((rest.drop (6 * j)).take 6))⟩

/-- All the frames of that loop: one for every 6 bytes, and one for the bytes left over (R81). -/
def contFrames (cfg : Config) (dest : Dest) (rest : Bytes) (q : Byte) : List Frame :=
  (List.range ((rest.length + 5) / 6)).map (contFrame cfg dest rest q)

/-- The frames of a message. -/
def messageFrames (cfg : Config) (dest : Dest) (msg : Bytes) : List Frame :=
  startFrame cfg dest msg :: contFrames cfg dest (msg.drop 4) 1

@[simp] theorem contFrames_nil (cfg : Config) (dest : Dest) (q : Byte) : contFrames cfg dest [] q = [] := rfl

theorem contFrame_succ (cfg : Config) (dest : Dest) (rest : Bytes) (q : Byte) (j : Nat) :
    contFrame cfg dest rest q (j + 1) = contFrame cfg dest (rest.drop 6) (q + 1) j := by
  have hq : q + BitVec.ofNat 8 (j + 1) = q + 1 + BitVec.ofNat 8 j := by
    rw [BitVec.ofNat_add, BitVec.add_comm (BitVec.ofNat 8 j), BitVec.add_assoc]; rfl
  rw [contFrame, contFrame, hq, List.drop_drop, Nat.mul_succ, Nat.add_comm 6]

/-- One round of the loop. -/
theorem contFrames_of_ne_nil {rest : Bytes} (h : rest ≠ []) (cfg : Config) (dest : Dest) (q : Byte) :
    contFrames cfg dest rest q = contFrame cfg dest rest q 0 :: contFrames cfg dest (rest.drop 6) (q + 1) := by
  have hpos : 0 < rest.length := List.length_pos_iff.2 h
  have hcount : (rest.length + 5) / 6 = ((rest.drop 6).length + 5) / 6 + 1 := by
    rw [List.length_drop]; omega
  rw [contFrames, hcount, List.range_succ_eq_map, List.map_cons, List.map_map]
  congr 1
  exact List.map_congr_left fun j _ => contFrame_succ cfg dest rest q j

theorem sendRest_eq {cfg : Config} {dest : Dest} (hd : Dest.legal dest) {n : Nat} {rest : Bytes}
    (hn : rest.length ≤ n) (q : Byte) : sendRest cfg dest n rest q = .ok (contFrames cfg dest rest q) := by
  induction n generalizing rest q with
  | zero =>
    obtain rfl := List.length_eq_zero_iff.1 (Nat.le_zero.1 hn)
    rfl
  | succ n ih =>
    cases rest with
    | nil => rfl
    | cons b bs =>
      have hrest : ((b :: bs).drop 6).length ≤ n := by
        rw [List.length_drop]; simp only [List.length_cons] at hn ⊢; omega
      have hfirst : contFrame cfg dest (b :: bs) q 0 = ⟨idOf dest, paddedTo8 cfg (contData q ((b :: bs).take 6))⟩ := by
        simp [contFrame]
      rw [contFrames_of_ne_nil (List.cons_ne_nil b bs), hfirst, sendRest, lit_contChunkMax, encodeCont_ok q hd (by simp),
        ih hrest]

theorem sendFrames_eq (cfg : Config) {dest : Dest} (hd : Dest.legal dest) (msg : Bytes) :
    sendFrames cfg dest msg = .ok (messageFrames cfg dest msg) := by
  rw [sendFrames, lit_startChunkMax, encodeStart_ok _ hd (by simp), sendRest_eq hd (by simp)]
  rfl

/-- `SEND_MSG` of a message it does not reject. -/
theorem exec_sendMsg_frames {dest : Nat} {msg : Bytes} (hd : legalDestination dest) (hm : msg.length ≤ 65535) (s : State) :
    exec (.sendMsg dest msg) s =
      .next { s with response := some (.frames (messageFrames s.cfg (BitVec.ofNat 3 dest) msg)) } := by
  show execSendMsg dest msg s = _
  rw [execSendMsg, if_neg (not_not_intro hd), if_neg (show ¬ lit.msgLenMax < msg.length from Nat.not_lt.2 hm),
    sendFrames_eq s.cfg (legal_ofNat hd)]
  rfl

theorem exec_encStart_ok {dest : Dest} (hd : Dest.legal dest) (L : U16) {c : Bytes} (hc : c.length ≤ 4) (s : State) :
    exec (.encStart dest L c) s =
      .next { s with response := some (.frame ⟨idOf dest, paddedTo8 s.cfg (startData L 0 c)⟩) } := by
  show respondFrame s (encodeStart s.cfg dest L c) = _
  rw [encodeStart_ok L hd hc]; rfl

theorem exec_encCont_ok {dest : Dest} (hd : Dest.legal dest) (q : Byte) {c : Bytes} (hc : c.length ≤ 6) (s : State) :
    exec (.encCont dest q c) s =
      .next { s with response := some (.frame ⟨idOf dest, paddedTo8 s.cfg (contData q c)⟩) } := by
  show respondFrame s (encodeCont s.cfg dest q c) = _
  rw [encodeCont_ok q hd hc]; rfl

/-- The number of frames (R81). -/
theorem length_messageFrames (cfg : Config) (dest : Dest) (msg : Bytes) :
    (messageFrames cfg dest msg).length = if msg.length ≤ 4 then 1 else 1 + (msg.length - 4 + 5) / 6 := by
  rw [messageFrames, contFrames, List.length_cons, List.length_map, List.length_range, List.length_drop]
  split <;> omega

/-- The `j`-th continuation frame of a message, with its number and its bytes as R80 has them. -/
theorem contFrame_of_message (cfg : Config) (dest : Dest) (msg : Bytes) (j : Nat) :
    contFrame cfg dest (msg.drop 4) 1 j =
      ⟨idOf dest, paddedTo8 cfg (contData (BitVec.ofNat 8 ((j + 1) % 256)) ((msg.drop (4 + 6 * j)).take 6))⟩ := by
  have hq : (1 : Byte) + BitVec.ofNat 8 j = BitVec.ofNat 8 ((j + 1) % 256) := by
    apply BitVec.eq_of_toNat_eq
    show (1#8 + BitVec.ofNat 8 j).toNat = _
    simp only [BitVec.toNat_add, BitVec.toNat_ofNat]; omega
  rw [contFrame, hq, List.drop_drop]

/-- Settles O47: the loop of R80 gives `messageFrames`, and each frame of it is its encoder operation's. -/
theorem sendMsgExpandsToEncoderOperations : Obligations.SendMsgExpandsToEncoderOperations := by
  intro s dest msg h1 h5 hm
  have hd : legalDestination dest := ⟨h1, h5⟩
  refine ⟨_, exec_sendMsg_frames hd hm s, length_messageFrames _ _ _, ⟨_, rfl, ?_⟩, fun j hj1 hj => ?_⟩
  · have hfirst : msg.take (min msg.length 4) = msg.take 4 := by rw [Nat.min_comm, ← List.take_eq_take_min]
    rw [hfirst, exec_encStart_ok (legal_ofNat hd) _ (by simp)]; rfl
  · obtain ⟨i, rfl⟩ : ∃ i, j = i + 1 := ⟨j - 1, by omega⟩
    have hi : i < ((msg.drop 4).length + 5) / 6 := by
      simpa [messageFrames, contFrames] using hj
    refine ⟨contFrame s.cfg (BitVec.ofNat 3 dest) (msg.drop 4) 1 i, ?_, ?_⟩
    · rw [messageFrames, contFrames, List.getElem?_cons_succ, List.getElem?_map, List.getElem?_range hi]; rfl
    · rw [contFrame_of_message, Nat.add_sub_cancel]
      exact exec_encCont_ok (legal_ofNat hd) _ (by simp) s

/-! ## `RECV_POLL` (R82) -/

/-- `RX_FRAME` after a `RESET`, when the filter and `RA_STEP` answer. -/
theorem rxFrame_of_ok {f : Frame} {s : State} {ra : ReassemblyState} {e : Event} (hl : s.resetDone = true)
    (hf : f.data.length ≤ 8) (h : rxStep f s.cfg s.ra = .ok (ra, e)) :
    rxFrame f s = .next { s with ra := ra, response := some (.event e) } :=
  (withFrame_fits hf _).trans (receive_of_ok hl h)

theorem exec_recvPoll_empty {s : State} (h : s.linkRx = []) :
    exec .recvPoll s = .next { s with response := none, requests := .recvPoll :: s.requests } := by
  show execRecvPoll s = _
  rw [execRecvPoll, h]; rfl

theorem exec_recvPoll_held {s : State} {f : Frame} {fs : List Frame} (h : s.linkRx = f :: fs) :
    exec .recvPoll s = rxFrame f { s with linkRx := fs, requests := .recvPoll :: s.requests } := by
  show execRecvPoll s = _
  rw [execRecvPoll, h]; rfl

/-- Settles O49: within the invariants `RX_FRAME` answers, and neither the queue nor the operations to come take part in it. -/
theorem recvPollGivesTheOldestFrameToRxFrame : Obligations.RecvPollGivesTheOldestFrameToRxFrame := by
  refine ⟨fun s => exec_recvPoll_empty, fun s f fs hs hrx hf => ?_⟩
  obtain ⟨ra, e, hok, -⟩ := rxStep_good f hs.inv hs.buffer
  refine ⟨ra, e, rxFrame_of_ok hs.launched hf hok, ?_⟩
  rw [exec_recvPoll_held hrx]
  exact rxFrame_of_ok (s := { s with linkRx := fs, requests := .recvPoll :: s.requests }) hs.launched hf hok

end Sys2Proof.Machine

/-! # Reassembling the frames of a message, and the polling node -/

namespace Sys2Proof.Machine

open Sys2Proof

/-! ## A message partly stored -/

/-- `Assembling` the message `msg`, with its first `n` bytes in the buffer. -/
structure ReassemblyState.Holds (cfg : Config) (msg : Bytes) (n : Nat) (ra : ReassemblyState) : Prop where
  assembling : ra.assembling = true
  expected : ra.expectedLength.toNat = msg.length
  received : ra.receivedLength.toNat = n
  buffer : ra.buffer.Ok cfg
  bytes : ∀ i < n, ra.buffer.read i = msg.getD i 0

/-- The chunk a sender's frame carries: the next at most `k` bytes of the message, and the pad bytes after them (R80, R92). -/
def chunkAt (sender : Config) (k : Nat) (msg : Bytes) (n : Nat) : Bytes :=
  (msg.drop n).take k ++ padTail sender k ((msg.drop n).take k).length

theorem length_chunkAt (sender : Config) (k : Nat) (msg : Bytes) (n : Nat) : (chunkAt sender k msg n).length ≤ k :=
  length_append_padTail sender (List.length_take_le _ _)

/-- A frame that does not reach the end of the message is full, so it holds no pad byte. -/
theorem chunkAt_full (sender : Config) {k n : Nat} {msg : Bytes} (h : n + k ≤ msg.length) :
    chunkAt sender k msg n = (msg.drop n).take k := by
  have hk : ((msg.drop n).take k).length = k := by rw [List.length_take, List.length_drop]; omega
  rw [chunkAt, hk, padTail, Nat.sub_self]
  simp

/-- A frame that reaches the end of the message carries all that is left of it. -/
theorem take_chunkAt_last (sender : Config) {k n : Nat} {msg : Bytes} (h : msg.length ≤ n + k) :
    (chunkAt sender k msg n).take (msg.length - n) = msg.drop n := by
  have hall : (msg.drop n).take k = msg.drop n := List.take_of_length_le (by rw [List.length_drop]; omega)
  rw [chunkAt, hall]
  exact List.take_left' List.length_drop

section

variable {cfg : Config} {msg : Bytes} {n : Nat} {ra : ReassemblyState}

/-- The bytes held, read in index order. -/
theorem ReassemblyState.Holds.read_all (h : ra.Holds cfg msg n) (hn : n ≤ msg.length) :
    (List.range' 0 n).map ra.buffer.read = msg.take n := by
  apply List.ext_getElem
  · simp [hn]
  · intro i hi _
    have hlt : i < n := by simpa using hi
    simp [h.bytes i hlt, List.getD_eq_getElem?_getD, show i < msg.length by omega]

/-- A full chunk that leaves the message unfinished is stored. -/
theorem storeAndCheck_unfinished {k : Nat} (hcap : msg.length ≤ cfg.capacity.toNat) (h : ra.Holds cfg msg n)
    (hlt : n + k < msg.length) :
    ∃ ra', storeAndCheck cfg ((msg.drop n).take k) ra = .ok (ra', .stillAssembling) ∧ ra'.Holds cfg msg (n + k) ∧
      ra'.nextSeq = ra.nextSeq := by
  have hk : ((msg.drop n).take k).length = k := by rw [List.length_take, List.length_drop]; omega
  obtain ⟨m, hm, hok, hread⟩ := storeAndCheck_still (c := (msg.drop n).take k) (h.expected ▸ hcap) h.buffer
    (by rw [h.received, h.expected, hk]; exact hlt)
  rw [hk] at hm hread
  refine ⟨_, hm, ⟨h.assembling, h.expected, ?_, hok, fun i hi => ?_⟩, rfl⟩
  · have hbound := ra.expectedLength.isLt
    have hexp := h.expected
    show (ra.receivedLength + BitVec.ofNat 16 k).toNat = n + k
    rw [BitVec.toNat_add, BitVec.toNat_ofNat, h.received]; omega
  · rw [hread i, h.received]
    split
    · rw [List.getD_eq_getElem?_getD, List.getElem?_take, if_pos (by omega), List.getElem?_drop,
        show n + (i - n) = i by omega, List.getD_eq_getElem?_getD]
    · exact h.bytes i (by omega)

/-- A chunk with all the message's last bytes in front delivers the message. -/
theorem storeAndCheck_finished {c : Bytes} (hcap : msg.length ≤ cfg.capacity.toNat) (h : ra.Holds cfg msg n)
    (hn : n ≤ msg.length) (hc : c.take (msg.length - n) = msg.drop n) :
    ∃ ra', storeAndCheck cfg c ra = .ok (ra', .complete msg) ∧ ra'.status = .idle := by
  have hlen : msg.length - n ≤ c.length := by
    have := congrArg List.length hc
    rw [List.length_take, List.length_drop] at this; omega
  obtain ⟨m, hm, -⟩ := storeAndCheck_whole (c := c) (h.expected ▸ hcap)
    (by rw [h.received, h.expected]; exact hn) h.buffer (by rw [h.received, h.expected]; omega)
  rw [h.received, h.expected, h.read_all hn, hc, List.take_append_drop] at hm
  exact ⟨_, hm, rfl⟩

end

/-! ## `RA_STEP` on a sender's frames -/

theorem raStep_start_fits {L : U16} {cfg : Config} (h : L.toNat ≤ cfg.capacity.toNat) (c : Bytes) (ra : ReassemblyState) :
    raStep (.start L c) cfg ra =
      storeAndCheck cfg c { ra with expectedLength := L, receivedLength := 0, nextSeq := 1, assembling := true } :=
  if_neg (Nat.not_lt.2 h)

theorem raStep_cont_inSequence {ra : ReassemblyState} (h : ra.assembling = true) (c : Bytes) (cfg : Config) :
    raStep (.continuation ra.nextSeq c) cfg ra = storeAndCheck cfg c { ra with nextSeq := ra.nextSeq + 1 } := by
  show raCont ra.nextSeq c cfg ra = _
  rw [raCont, if_neg (by simp [h]), if_neg (not_not_intro rfl)]; rfl

theorem decodeKind_startFrame (sender : Config) (dest : Dest) (msg : Bytes) :
    decodeKind (startFrame sender dest msg).data = .start (BitVec.ofNat 16 msg.length) (chunkAt sender 4 msg 0) := by
  rw [startFrame, paddedTo8_startData, decodeKind_startData, chunkAt, List.drop_zero]

theorem decodeKind_contFrame (sender : Config) (dest : Dest) (msg : Bytes) (n : Nat) (q : Byte) :
    decodeKind (contFrame sender dest (msg.drop n) q 0).data = .continuation q (chunkAt sender 6 msg n) := by
  rw [contFrame, paddedTo8_contData, decodeKind_contData, chunkAt, Nat.mul_zero, List.drop_zero]
  congr 1
  exact BitVec.add_zero q

theorem length_startFrame (sender : Config) (dest : Dest) (msg : Bytes) : (startFrame sender dest msg).data.length ≤ 8 :=
  length_paddedTo8 sender (by simp)

theorem length_contFrame (sender : Config) (dest : Dest) (rest : Bytes) (q : Byte) (j : Nat) :
    (contFrame sender dest rest q j).data.length ≤ 8 :=
  length_paddedTo8 sender (by simp)

/-! ## Delivering a message (R126) -/

/-- The frames `fs`, given to `RX_FRAME` from `s` on, are answered `StillAssembling` but for the last, which delivers `msg` and
leaves the reassembler `Idle` with zero scalars. -/
def Delivers (s : State) (fs : List Frame) (msg : Bytes) : Prop :=
  ∃ t, rxAll s fs = some (List.replicate (fs.length - 1) .stillAssembling ++ [.complete msg], t) ∧ t.raStatus = .idle

theorem Delivers.last {s t : State} {f : Frame} {msg : Bytes} (h : exec (.rxFrame f) s = .next t)
    (hr : t.response = some (.event (.complete msg))) (ht : t.raStatus = .idle) : Delivers s [f] msg :=
  ⟨t, by rw [rxAll_cons h hr, rxAll_nil]; rfl, ht⟩

theorem Delivers.cons {s t : State} {f g : Frame} {fs : List Frame} {msg : Bytes} (h : exec (.rxFrame f) s = .next t)
    (hr : t.response = some (.event .stillAssembling)) (ht : Delivers t (g :: fs) msg) : Delivers s (f :: g :: fs) msg := by
  obtain ⟨u, hu, hidle⟩ := ht
  exact ⟨u, by rw [rxAll_cons h hr, hu]; rfl, hidle⟩

/-- A frame for this node whose chunk is the message's next one delivers the message when it reaches its end, and otherwise
leaves the delivery to the continuation frames after it. -/
theorem delivers_of_chunk {s : State} {f : Frame} {ra : ReassemblyState} {sender : Config} {k n : Nat} {msg : Bytes}
    (hl : s.resetDone = true) (hf : addressed s.cfg f) (hlen : f.data.length ≤ 8)
    (hcap : msg.length ≤ s.cfg.capacity.toNat) (hn : n ≤ msg.length) (hra : ra.Holds s.cfg msg n)
    (hstep : raStep (decodeKind f.data) s.cfg s.ra = storeAndCheck s.cfg (chunkAt sender k msg n) ra)
    (hnext : ∀ t : State, t.resetDone = true → t.cfg = s.cfg → t.ra.Holds s.cfg msg (n + k) →
      t.ra.nextSeq = ra.nextSeq → n + k < msg.length →
      Delivers t (contFrames sender s.cfg.selfId (msg.drop (n + k)) ra.nextSeq) msg) :
    Delivers s (f :: contFrames sender s.cfg.selfId (msg.drop (n + k)) ra.nextSeq) msg := by
  have run : ∀ {ra' e}, storeAndCheck s.cfg (chunkAt sender k msg n) ra = .ok (ra', e) →
      exec (.rxFrame f) s = .next { s with ra := ra', response := some (.event e) } := fun h =>
    rxFrame_of_ok hl hlen ((if_pos hf).trans (hstep.trans h))
  by_cases hlt : n + k < msg.length
  · obtain ⟨ra', hok, hholds, hq⟩ := storeAndCheck_unfinished hcap hra hlt
    rw [← chunkAt_full sender hlt.le] at hok
    have hmore : msg.drop (n + k) ≠ [] := by simpa using hlt
    have after := hnext { s with ra := ra', response := some (.event .stillAssembling) } hl rfl hholds hq hlt
    rw [contFrames_of_ne_nil hmore] at after ⊢
    exact Delivers.cons (run hok) rfl after
  · obtain ⟨ra', hok, hidle⟩ := storeAndCheck_finished hcap hra hn (take_chunkAt_last sender (Nat.le_of_not_lt hlt))
    rw [List.drop_of_length_le (Nat.le_of_not_lt hlt), contFrames_nil]
    exact Delivers.last (run hok) rfl hidle

/-- The continuation frames for the rest of a message deliver it, from any sender. -/
theorem contFrames_deliver (sender : Config) {msg : Bytes} {n : Nat} {s : State} (hl : s.resetDone = true)
    (hcap : msg.length ≤ s.cfg.capacity.toNat) (hn : n < msg.length) (hra : s.ra.Holds s.cfg msg n) :
    Delivers s (contFrames sender s.cfg.selfId (msg.drop n) s.ra.nextSeq) msg := by
  induction hrest : msg.length - n using Nat.strong_induction_on generalizing n s with
  | _ left ih =>
    have hmore : msg.drop n ≠ [] := by simpa using hn
    rw [contFrames_of_ne_nil hmore, List.drop_drop]
    refine delivers_of_chunk (ra := { s.ra with nextSeq := s.ra.nextSeq + 1 }) hl rfl (length_contFrame _ _ _ _ _) hcap hn.le
      ⟨hra.assembling, hra.expected, hra.received, hra.buffer, hra.bytes⟩ ?_ fun t htl htc htra htq hlt => ?_
    · rw [decodeKind_contFrame, raStep_cont_inSequence hra.assembling]
    · have after := ih (msg.length - (n + 6)) (by omega) htl (htc ▸ hcap) hlt (htc ▸ htra) rfl
      rwa [htc, htq] at after

/-- The frames of a message to this node deliver it, from any sender and whatever was being assembled (R126). -/
theorem messageFrames_deliver (sender : Config) {msg : Bytes} {s : State} (hs : s.Ready)
    (hcap : msg.length ≤ s.cfg.capacity.toNat) : Delivers s (messageFrames sender s.cfg.selfId msg) msg := by
  have hL : (BitVec.ofNat 16 msg.length).toNat = msg.length := by
    have := s.cfg.capacity.isLt
    rw [BitVec.toNat_ofNat]; omega
  refine delivers_of_chunk (k := 4) (n := 0) hs.launched rfl (length_startFrame _ _ _) hcap (Nat.zero_le _)
    (ra := { s.ra with expectedLength := BitVec.ofNat 16 msg.length, receivedLength := 0, nextSeq := 1, assembling := true })
    ⟨rfl, hL, rfl, hs.buffer, fun i hi => absurd hi (Nat.not_lt_zero i)⟩ ?_ fun t htl htc htra htq hlt => ?_
  · rw [decodeKind_startFrame, raStep_start_fits (hL.trans_le hcap)]
  · have after := contFrames_deliver sender htl (htc ▸ hcap) hlt (htc ▸ htra)
    rwa [htc, htq] at after

/-! ## The polling node (R82) -/

/-- `RX_FRAME` does not read the queue of received frames. -/
theorem rxFrame_with_linkRx {f : Frame} {s t : State} (h : rxFrame f s = .next t) (fs : List Frame) :
    rxFrame f { s with linkRx := fs } = .next { t with linkRx := fs } := by
  obtain ⟨hf, hrun⟩ := withFrame_next h
  obtain ⟨hl, ra, e, hok, rfl⟩ := receive_next hrun
  exact rxFrame_of_ok (s := { s with linkRx := fs }) hl hf hok

/-- A step of a polling node is `RX_FRAME` of the oldest frame held, and the node polls on. -/
theorem step_recvPoll {f : Frame} {fs : List Frame} {s t : State} {rest : List Instr} (hl : s.cfg.legal)
    (hr : s.requests = .recvPoll :: rest) (h : exec (.rxFrame f) s = .next t) :
    step { s with linkRx := f :: fs } = .next { t with linkRx := fs } := by
  rw [step_issue (s := { s with linkRx := f :: fs }) hl hr, exec_recvPoll_held rfl, ← hr]
  exact rxFrame_with_linkRx h fs

theorem run_succ {M : Host.Core} {s t : M.State} (h : M.step s = .next t) (k : Nat) : M.run (k + 1) s = M.run k t := by
  rw [Host.Core.run, h]

/-- As many steps of a polling node as it has frames: what `RX_FRAME` does with them in order, and the frames are taken. -/
theorem run_recvPoll {fs : List Frame} (later : List Frame) {s t : State} {es : List Event} {rest : List Instr}
    (hl : s.cfg.legal) (hr : s.requests = .recvPoll :: rest) (h : rxAll s fs = some (es, t)) :
    core.run fs.length { s with linkRx := fs ++ later } = .next { t with linkRx := later } := by
  induction fs generalizing s es with
  | nil => cases h; rfl
  | cons f fs ih =>
    obtain ⟨u, e, es', hu, -, hrest, -⟩ := rxAll_cons_some h
    have hq : u.requests = s.requests := (rxFrame_queues hu).1
    have hc : u.cfg = s.cfg := exec_cfg hu
    exact (run_succ (M := core) (step_recvPoll hl hr hu) fs.length).trans (ih (hc ▸ hl) (hq.trans hr) hrest)

theorem rxAll_requests {fs : List Frame} {s t : State} {es : List Event} (h : rxAll s fs = some (es, t)) :
    t.requests = s.requests := by
  induction fs generalizing s es with
  | nil => cases h; rfl
  | cons f fs ih =>
    obtain ⟨u, e, es', hu, -, hrest, -⟩ := rxAll_cons_some h
    exact (ih hrest).trans (rxFrame_queues hu).1

/-- The last event of a run is the outcome after it. -/
theorem rxAll_response {fs : List Frame} {s t : State} {es : List Event} {e : Event}
    (h : rxAll s fs = some (es ++ [e], t)) : t.response = some (.event e) := by
  induction fs generalizing s es with
  | nil => cases es <;> cases h
  | cons f fs ih =>
    obtain ⟨u, e', es', hu, hr, hrest, hes⟩ := rxAll_cons_some h
    cases es with
    | nil =>
      obtain ⟨rfl, rfl⟩ := List.cons.inj hes
      cases fs with
      | nil => cases hrest; exact hr
      | cons g gs => obtain ⟨_, _, _, _, _, _, hnil⟩ := rxAll_cons_some hrest; cases hnil
    | cons d ds =>
      obtain ⟨-, rfl⟩ := List.cons.inj hes
      exact ih hrest

/-- Settles O41: the frames are `messageFrames`, which deliver the message, and the polling node gives them to `RX_FRAME`. -/
theorem pollingReceiverDeliversTheMessage : Obligations.PollingReceiverDeliversTheMessage := by
  intro s sender msg rest fs later hs hl hcap hsend hr hrx
  have hm : msg.length ≤ 65535 := by
    have := s.cfg.capacity.isLt; omega
  have hfs : fs = messageFrames sender.cfg s.cfg.selfId msg := by
    rw [exec_sendMsg_frames hl.1 hm, BitVec.ofNat_toNat, BitVec.setWidth_eq] at hsend
    simpa using hsend.symm
  obtain ⟨t, ht, hidle⟩ := messageFrames_deliver sender.cfg hs hcap
  rw [← hfs] at ht
  have hrun := run_recvPoll later hl hr ht
  rw [← hrx] at hrun
  exact ⟨{ t with linkRx := later }, hrun, rxAll_response (t := t) ht, hidle, rfl, rxAll_requests (t := t) ht⟩

end Sys2Proof.Machine

/-! # The encoder's frames and its faults -/

namespace Sys2Proof.Machine

open Sys2Proof

/-! ## The contract of the encoder (R94) -/

/-- The chunk's length is checked first: a chunk that is too long faults, whatever the destination. -/
theorem buildFrame_tooLong {n : Nat} {chunk : Bytes} (hc : n < chunk.length) (cfg : Config) (dest : Dest) (d : Bytes) :
    buildFrame cfg dest n chunk d = .error .encChunkTooLong := if_pos hc

/-- With a chunk that fits, `MakeId` decides (R93). -/
theorem buildFrame_badDest {dest : Dest} (hd : ¬ Dest.legal dest) {n : Nat} {chunk : Bytes} (hc : chunk.length ≤ n)
    (cfg : Config) (d : Bytes) : buildFrame cfg dest n chunk d = .error .encBadDest := by
  rw [buildFrame, if_neg (Nat.not_lt.2 hc), makeId, if_neg hd]

/-- A failed frame is the operation's fault (R94). -/
theorem respondFrame_of_error {x : Except Fault Frame} {r : Fault} (h : x = .error r) (s : State) :
    respondFrame s x = .fault r := by rw [h]; rfl

theorem not_legal_of_outside {dest : Dest} (h : dest.toNat < 1 ∨ 5 < dest.toNat) : ¬ Dest.legal dest := by
  rw [legal_iff]; omega

/-! ## `ENC_START` (R90) and `ENC_CONT` (R91) -/

/-- Settles O14: within the contract `exec_encStart_ok` gives the frame, outside it `buildFrame` fails for the reason of R94. -/
theorem encStartBuildsTheStartFrame : Obligations.EncStartBuildsTheStartFrame := by
  refine fun s dest totalLength chunk => ⟨fun hc h1 h5 => ?_, fun hc => ?_, fun hc hd => ?_⟩
  · rw [extractLsb_low, extractLsb_high]
    exact exec_encStart_ok ⟨h1, h5⟩ totalLength hc s
  · exact respondFrame_of_error (buildFrame_tooLong hc _ _ _) s
  · exact respondFrame_of_error (buildFrame_badDest (not_legal_of_outside hd) hc _ _) s

/-- Settles O15, as O14, with `exec_encCont_ok`; the sequence number takes no part in the contract. -/
theorem encContBuildsTheContinuationFrame : Obligations.EncContBuildsTheContinuationFrame := by
  refine fun s dest seq chunk => ⟨fun hc h1 h5 => ?_, fun hc => ?_, fun hc hd => ?_⟩
  · exact exec_encCont_ok ⟨h1, h5⟩ seq hc s
  · exact respondFrame_of_error (buildFrame_tooLong hc _ _ _) s
  · exact respondFrame_of_error (buildFrame_badDest (not_legal_of_outside hd) hc _ _) s

end Sys2Proof.Machine

/-! # The decoder's answer, and its round trip with the encoder -/

namespace Sys2Proof.Machine

open Sys2Proof

/-! ## `DECODE` (R101, R102) -/

/-- `DECODE` answers every frame with its kind. -/
theorem exec_decodeFrame {d : Bytes} (hd : d.length ≤ 8) (s : State) :
    exec (.decodeFrame d) s = .next { s with response := some (.kind (decodeKind d)) } := withFrame_fits hd _

/-- A kind that `DECODE` answers is the one the frame's data decodes to. -/
theorem decodeKind_of_exec {d : Bytes} {s : State} {k : FrameKind}
    (h : exec (.decodeFrame d) s = .next { s with response := some (.kind k) }) : decodeKind d = k := by
  have hd : d.length ≤ 8 := (withFrame_next h).1
  rw [exec_decodeFrame hd] at h
  injection h with hstate
  injection congrArg State.response hstate with hresponse
  injection hresponse

/-- Settles O16: the kind is `decodeKind`'s, which each shape of the data selects as R66 says. -/
theorem decodeClassifiesEveryFrame : Obligations.DecodeClassifiesEveryFrame := by
  intro s d hd
  refine ⟨decodeKind d, exec_decodeFrame hd s, ?empty, ?shortStart, ?start, ?shortCont, ?cont, ?other⟩
  case empty => rintro rfl; exact decodeKind_nil
  case shortStart => rintro t rfl ht; exact decodeKind_shortStart ht
  case start => rintro lo hi p c rfl; exact ⟨joinBytes lo hi, decodeKind_start lo hi p c, joinBytes_toNat lo hi⟩
  case shortCont => rintro rfl; exact decodeKind_shortCont
  case cont => rintro q c rfl; exact decodeKind_cont q c
  case other => rintro b t rfl ha hc; exact decodeKind_other ha hc t

/-! ## Decoding what was encoded, and encoding what was decoded (R105) -/

/-- Data is read as a start frame only if it is one: all of it but byte 3 stands in the kind. -/
theorem eq_startData_of_decodeKind {d c : Bytes} {L : U16} (h : decodeKind d = .start L c) :
    ∃ p, d = startData L p c := by
  rcases frameData_cases d with rfl | ⟨t, ht, rfl⟩ | ⟨lo, hi, p, c', rfl⟩ | rfl | ⟨q, c', rfl⟩ | ⟨b, t, ha, hc, rfl⟩
  · cases h
  · rw [decodeKind_shortStart ht] at h; cases h
  · rw [decodeKind_start] at h
    cases h
    exact ⟨p, by rw [startData, loByte_joinBytes, hiByte_joinBytes]; rfl⟩
  · cases h
  · rw [decodeKind_cont] at h; cases h
  · rw [decodeKind_other ha hc] at h; cases h

/-- The same for a continuation frame, whose kind holds every byte. -/
theorem eq_contData_of_decodeKind {d c : Bytes} {q : Byte} (h : decodeKind d = .continuation q c) : d = contData q c := by
  rcases frameData_cases d with rfl | ⟨t, ht, rfl⟩ | ⟨lo, hi, p, c', rfl⟩ | rfl | ⟨q', c', rfl⟩ | ⟨b, t, ha, hc, rfl⟩
  · cases h
  · rw [decodeKind_shortStart ht] at h; cases h
  · rw [decodeKind_start] at h; cases h
  · cases h
  · rw [decodeKind_cont] at h; cases h; rfl
  · rw [decodeKind_other ha hc] at h; cases h

/-- The placeholder is byte 3 of a start frame and no other (R61, R70). -/
theorem startData_getElem?_of_ne {i : Nat} (hi : i ≠ 3) (L : U16) (p p' : Byte) (c : Bytes) :
    (startData L p c)[i]? = (startData L p' c)[i]? := by
  match i with
  | 0 | 1 | 2 => rfl
  | 3 => exact absurd rfl hi
  | _ + 4 => rfl

/-- Without padding the encoder emits the data as it is (R92). -/
theorem paddedTo8_of_off {cfg : Config} (h : cfg.padEnable = false) (d : Bytes) : paddedTo8 cfg d = d := by
  rw [paddedTo8, h]; rfl

/-- Settles O17: padded data is the data of a frame with the pad bytes in its chunk, which `DECODE` reads back; and data that
`DECODE` reads as a frame of either kind is that frame's, up to the placeholder. -/
theorem codecRoundTrip : Obligations.CodecRoundTrip := by
  intro s dest h1 h5
  have hdest : Dest.legal dest := ⟨h1, h5⟩
  refine ⟨fun L c hc => ⟨_, exec_encStart_ok hdest L hc s, ?start⟩, fun q c hc => ⟨_, exec_encCont_ok hdest q hc s, ?cont⟩,
    fun hoff d hd => ⟨fun L c h => ?startBack, fun q c h => ?contBack⟩⟩
  case start =>
    rw [exec_decodeFrame (length_paddedTo8 _ (by rw [length_startData]; omega)), paddedTo8_startData, decodeKind_startData]
  case cont =>
    rw [exec_decodeFrame (length_paddedTo8 _ (by rw [length_contData]; omega)), paddedTo8_contData, decodeKind_contData]
  case startBack =>
    obtain ⟨p, rfl⟩ := eq_startData_of_decodeKind (decodeKind_of_exec h)
    have hc : c.length ≤ 4 := by rw [length_startData] at hd; omega
    refine ⟨_, exec_encStart_ok hdest L hc s, ?_⟩
    rw [paddedTo8_of_off hoff]
    exact ⟨by rw [length_startData, length_startData], fun i hi => startData_getElem?_of_ne hi L 0 p c⟩
  case contBack =>
    obtain rfl := eq_contData_of_decodeKind (decodeKind_of_exec h)
    have hc : c.length ≤ 6 := by rw [length_contData] at hd; omega
    exact ⟨_, exec_encCont_ok hdest q hc s, paddedTo8_of_off hoff _⟩

end Sys2Proof.Machine

/-! # The reassembler's transition rules, and the messages it delivers -/

namespace Sys2Proof.Machine

open Sys2Proof

/-! ## The filter and the wire frames (R110, R111) -/

/-- Only what the step answers for this state takes part in giving the reassembler a frame. -/
theorem receive_congr {f g : Config → ReassemblyState → RaResult} {s : State} (h : f s.cfg s.ra = g s.cfg s.ra) :
    receive f s = receive g s := by
  rw [receive, receive, h]

/-- Behind the filter `RX_FRAME` is the wire frame with the same data. -/
theorem exec_rxFrame_isFor {s : State} {f : Frame} (h : isFor s.cfg f) : exec (.rxFrame f) s = wireFrame f.data s := by
  show rxFrame f s = _
  rw [rxFrame, wireFrame, receive_congr (rxStep_isFor h s.ra)]

/-- `RX_FRAME` on a start frame for this node. -/
theorem exec_rxFrame_start {s : State} {f : Frame} {lo hi p : Byte} {c : Bytes} (h : isFor s.cfg f)
    (hd : f.data = 0xAA#8 :: lo :: hi :: p :: c) : exec (.rxFrame f) s = exec (.start (joinBytes lo hi) p c) s := by
  rw [exec_rxFrame_isFor h, hd, ← exec_wireInstr, wireInstr_start]

/-- `RX_FRAME` on a continuation frame for this node. -/
theorem exec_rxFrame_cont {s : State} {f : Frame} {q : Byte} {c : Bytes} (h : isFor s.cfg f)
    (hd : f.data = 0xCC#8 :: q :: c) : exec (.rxFrame f) s = exec (.cont q c) s := by
  rw [exec_rxFrame_isFor h, hd, ← exec_wireInstr, wireInstr_cont]

/-- Settles O20: the filter answers before the frame's data is examined. -/
theorem filteredFramesChangeNothing : Obligations.FilteredFramesChangeNothing :=
  fun s _ hl hf hid => rxFrame_of_ok hl hf (rxStep_not_isFor hid s.ra)

/-- Settles O21: `rxStep_good` is the totality of the filter and `RA_STEP` together, and no other field is written. -/
theorem rxFrameIsTotal : Obligations.RxFrameIsTotal := by
  intro s f hs hf
  obtain ⟨ra, e, hok, hinv, hbuf⟩ := rxStep_good f hs.inv hs.buffer
  exact ⟨ra, e, rxFrame_of_ok hs.launched hf hok, hinv, hbuf⟩

/-- Every operation keeps the launch premise and the invariants (R27, R28, R171). -/
theorem exec_keeps_ready {i : Instr} {s t : State} (hs : s.Ready) (h : exec i s = .next t) : t.Ready := by
  rcases exec_next h with ⟨-, f, ra, e, hok, hf, ht⟩ | ⟨-, ht⟩ | ht
  · obtain ⟨hinv, hbuf⟩ := reassembler_keeps_inv hf hok hs.inv hs.buffer
    rw [ht]
    exact ⟨hs.launched, hinv, hbuf⟩
  · rw [ht]
    exact ⟨rfl, reset_inv _, reset_buffer_ok _⟩
  · rw [ht]
    exact ⟨hs.launched, hs.inv, hs.buffer⟩

/-- Settles O22: a wire instruction runs `RA_STEP` on its data, as `RX_FRAME` does behind the filter. -/
theorem rxFrameRunsTheWireInstruction : Obligations.RxFrameRunsTheWireInstruction := by
  refine ⟨fun s f hf => ?_, fun s f i hf hi => ?_⟩
  · rw [exec_rxFrame_isFor hf, exec_wireInstr]
  · rw [exec_rxFrame_isFor hf, exec_of_wireData hi]

/-! ## Accepted frames (R114, R116) -/

/-- A message is delivered as the buffer holds it after the store (R32, R122). -/
theorem storeAndCheck_message {cfg : Config} {ra ra' : ReassemblyState} {c msg : Bytes}
    (h : storeAndCheck cfg c ra = .ok (ra', .complete msg)) :
    msg = (List.range ra.expectedLength.toNat).map ra'.buffer.read := by
  unfold storeAndCheck storeChunk at h
  split at h
  · rename_i ra₁ hstore
    split at hstore
    · cases hstore
      unfold checkComplete at h
      split at h
      · split at h
        · rename_i m hm
          cases h
          rw [memReadAll_eq hm, List.range_eq_range']
          rfl
        · cases h
      · cases h
    · cases hstore
  · cases h

/-- The ReassemblyState in which an accepted start frame's chunk is stored (R114). -/
def ReassemblyState.started (L : U16) (ra : ReassemblyState) : ReassemblyState :=
  { ra with expectedLength := L, receivedLength := 0, nextSeq := 1, assembling := true }

@[simp] theorem started_expectedLength (L : U16) (ra : ReassemblyState) : (ra.started L).expectedLength = L := rfl
@[simp] theorem started_receivedLength (L : U16) (ra : ReassemblyState) : (ra.started L).receivedLength = 0#16 := rfl
@[simp] theorem started_buffer (L : U16) (ra : ReassemblyState) : (ra.started L).buffer = ra.buffer := rfl

/-- R114: an accepted start frame stores its chunk from the first byte on. -/
theorem raStart_fits {L : U16} {cfg : Config} (hL : L.toNat ≤ cfg.capacity.toNat) (c : Bytes) (ra : ReassemblyState) :
    raStart L c cfg ra = storeAndCheck cfg c (ra.started L) := raStep_start_fits hL c ra

/-- Settles O23: `StoreChunk` runs from `receivedLength = 0`, and `CheckComplete` compares the chunk's length with `L`. -/
theorem startFrameAccepted : Obligations.StartFrameAccepted := by
  intro s L p c hs hc hL
  rw [exec_start hc]
  have run := raStart_fits hL c s.ra
  refine ⟨fun hwhole => ?_, fun hstill => ?_⟩
  · obtain ⟨m, hm, -, hread⟩ := storeAndCheck_whole (c := c) (ra := s.ra.started L) hL (Nat.zero_le _) hs.buffer
      (by simpa using hwhole)
    exact ⟨m, receive_of_ok hs.launched (run.trans hm), fun a => by simpa using hread a⟩
  · obtain ⟨m, hm, -, hread⟩ := storeAndCheck_still (c := c) (ra := s.ra.started L) hL hs.buffer (by simpa using hstill)
    rw [started_receivedLength, BitVec.zero_add] at hm
    exact ⟨m, receive_of_ok hs.launched (run.trans hm), fun a => by simpa using hread a⟩

/-- `nextSeq + 1` as a number modulo 256 (R24). -/
theorem byte_add_one_eq_ofNat (q : Byte) : q + 1 = BitVec.ofNat 8 ((q.toNat + 1) % 256) := by
  apply BitVec.eq_of_toNat_eq
  simp

/-- Settles O25: `StoreChunk` runs from `receivedLength` with `nextSeq` raised, and the message delivered is read back from the
buffer it leaves. -/
theorem continuationFrameAccepted : Obligations.ContinuationFrameAccepted := by
  rintro s _ c hs hc has rfl
  rw [exec_cont hc]
  have run := raStep_cont_inSequence has c s.cfg
  refine ⟨fun hwhole => ?_, fun hstill => ?_⟩
  · obtain ⟨m, hm, -, hread⟩ := storeAndCheck_whole (c := c) (ra := { s.ra with nextSeq := s.ra.nextSeq + 1 })
      hs.inv.fits hs.inv.bounded hs.buffer hwhole
    rw [storeAndCheck_message hm] at hm
    exact ⟨m, receive_of_ok hs.launched (run.trans hm), hread⟩
  · obtain ⟨m, hm, -, hread⟩ := storeAndCheck_still (c := c) (ra := { s.ra with nextSeq := s.ra.nextSeq + 1 })
      hs.inv.fits hs.buffer hstill
    refine ⟨m, receive_of_ok hs.launched (run.trans ?_), hread⟩
    rw [hm, has, ← byte_add_one_eq_ofNat, BitVec.ofNat_add, BitVec.ofNat_toNat, BitVec.setWidth_eq]

/-! ## Aborted and ignored frames (R115, R117 to R121) -/

/-- Settles O24: the capacity check comes first, whatever the state. -/
theorem startFrameExceedsCapacity : Obligations.StartFrameExceedsCapacity := by
  intro s L p c hl hc hL
  rw [exec_start hc]
  exact receive_of_ok hl (if_pos hL)

/-- Settles O26: the sequence check comes before the store. -/
theorem continuationFrameOutOfSequence : Obligations.ContinuationFrameOutOfSequence := by
  intro s q c hl hc has hq
  rw [exec_cont hc]
  exact receive_of_ok hl (raStep_cont_mismatch has hq c s.cfg)

/-- An `Idle` ReassemblyState has nothing to discard (R28 item 1). -/
theorem returnToIdle_of_idle {cfg : Config} {ra : ReassemblyState} (hi : ra.Inv cfg) (h : ra.assembling = false) :
    returnToIdle ra = ra := by
  obtain ⟨hexpected, hreceived, hnext⟩ := hi.idle_zero h
  cases ra
  simp_all [returnToIdle]

/-- Settles O27: the `Idle` check comes before the number is looked at, and the abort writes zeros over zeros. -/
theorem continuationFrameWhileIdle : Obligations.ContinuationFrameWhileIdle := by
  intro s q c hs hc hidle
  have abort : raCont q c s.cfg s.ra = .ok (returnToIdle s.ra, .aborted .unexpectedContinuation) := if_pos hidle
  rw [returnToIdle_of_idle hs.inv hidle] at abort
  rw [exec_cont hc]
  exact receive_of_ok hs.launched abort

/-- Settles O28: data of either shape decodes as `Unknown`, which `RA_STEP` only reports. -/
theorem unknownFrameIsIgnored : Obligations.UnknownFrameIsIgnored := by
  intro s d hl hd hshape
  have hkind : decodeKind d = .unknown := by
    rcases hshape with rfl | ⟨b, r, rfl, ha, hc⟩
    · exact decodeKind_nil
    · exact decodeKind_other ha hc r
  rw [exec_unknown hd hkind]
  exact receive_of_ok hl rfl

/-- Settles O29: both malformed kinds abort, whatever the state. -/
theorem malformedFramesAbort : Obligations.MalformedFramesAbort := by
  rintro s _ hl (⟨tail, htail, rfl⟩ | rfl)
  · rw [exec_malformedStart (Nat.lt_succ_of_le htail)]
    exact receive_of_ok hl rfl
  · rw [exec_malformedCont]
    exact receive_of_ok hl rfl

/-- Settles O42: the frame is the start frame of its length, which O23 says is accepted and O24 says is rejected. -/
theorem capacityBoundary : Obligations.CapacityBoundary := by
  intro s f lo hi p c hs hf hc hd
  rw [exec_rxFrame_start hf hd, ← joinBytes_toNat]
  refine ⟨fun hcap => ?_, fun hcap => ?_⟩
  · have hL : joinBytes lo hi = s.cfg.capacity := BitVec.eq_of_toNat_eq hcap
    rw [hL]
    obtain ⟨whole, still⟩ := startFrameAccepted s s.cfg.capacity p c hs hc le_rfl
    rcases Nat.lt_or_ge c.length s.cfg.capacity.toNat with hlt | hge
    · obtain ⟨m, hx, -⟩ := still hlt
      exact ⟨_, hx, .inl ⟨rfl, rfl⟩⟩
    · obtain ⟨m, hx, -⟩ := whole hge
      exact ⟨_, hx, .inr rfl⟩
  · exact ⟨_, startFrameExceedsCapacity s (joinBytes lo hi) p c hs.launched hc (by omega), rfl, rfl⟩

/-! ## Whole messages (R126, R128, R130) -/

/-- `SEND_MSG` to a legal destination of a message that some buffer can hold. -/
theorem exec_sendMsg_to {dest : Dest} {msg : Bytes} {cap : U16} (hd : Dest.legal dest) (hm : msg.length ≤ cap.toNat)
    (sender : State) : exec (.sendMsg dest.toNat msg) sender =
      .next { sender with response := some (.frames (messageFrames sender.cfg dest msg)) } := by
  have hlen : msg.length ≤ 65535 := by
    have := cap.isLt; omega
  rw [exec_sendMsg_frames hd hlen, BitVec.ofNat_toNat, BitVec.setWidth_eq]

/-- Settles O40: the frames are `messageFrames`, which deliver the message, by induction on the bytes still to come. -/
theorem messageRoundTrip : Obligations.MessageRoundTrip := by
  intro s sender msg hs hl hcap
  obtain ⟨t, hrun, hidle⟩ := messageFrames_deliver sender.cfg hs hcap
  exact ⟨_, t, exec_sendMsg_to hl.1 hcap sender, hrun, hidle⟩

/-- Settles O43: the abort of O26 leaves a Ready state, from which the next message's frames deliver it as from any other. -/
theorem sequenceGapThenNextMessage : Obligations.SequenceGapThenNextMessage := by
  intro s sender f q c msg hs hl has hf hc hd hq hcap
  have gap := (exec_rxFrame_cont hf hd).trans (continuationFrameOutOfSequence s q c hs.launched hc has hq)
  obtain ⟨t, hrun, hidle⟩ := messageFrames_deliver sender.cfg (exec_keeps_ready hs gap) hcap
  refine ⟨_, t, exec_sendMsg_to hl.1 hcap sender, ?_, hidle⟩
  rw [rxAll_cons gap rfl, hrun]
  rfl

/-- The frames of the empty message from a sender that does not pad: one start frame without a chunk. -/
theorem messageFrames_nil {sender : Config} (h : sender.padEnable = false) (dest : Dest) :
    messageFrames sender dest [] = [⟨idOf dest, startData 0 0 []⟩] := by
  rw [messageFrames, startFrame, paddedTo8_of_off h]
  rfl

/-- Settles O45: the empty message has one frame, and that frame delivers it as the frames of any message do. -/
theorem zeroLengthMessage : Obligations.ZeroLengthMessage := by
  intro s sender hs hl hoff
  have hcap : ([] : Bytes).length ≤ s.cfg.capacity.toNat := Nat.zero_le _
  have send := exec_sendMsg_to hl.1 hcap sender
  obtain ⟨t, hrun, hidle⟩ := messageFrames_deliver sender.cfg hs hcap
  rw [messageFrames_nil hoff] at send hrun
  obtain ⟨u, e, es, hx, hr, hrest, hes⟩ := rxAll_cons_some hrun
  cases hrest
  cases hes
  exact ⟨_, send, rfl, idOf_toNat _, t, hx, hr, hidle⟩

/-! ## A start frame mid-assembly (R129) -/

/-- Two nodes whose ReassemblyStates differ in meaningless bytes only report the same events of the same frames, whatever their
queues hold. -/
theorem rxAll_events_of_similar (fs : List Frame) {s u : State} (hs : s.Ready) (hu : u.Ready) (hcfg : s.cfg = u.cfg)
    (h : s.ra.Similar u.ra) : (rxAll s fs).map Prod.fst = (rxAll u fs).map Prod.fst := by
  induction fs generalizing s u with
  | nil => rfl
  | cons f fs ih =>
    by_cases hf : f.data.length ≤ 8
    · obtain ⟨ra, e, hok, -⟩ := rxStep_good f hs.inv hs.buffer
      obtain ⟨ra', hok', hsim⟩ := rxStep_like f s.cfg h hs.buffer.canonical hu.buffer.canonical ra e hok
      have hx : exec (.rxFrame f) s = _ := rxFrame_of_ok hs.launched hf hok
      have hx' : exec (.rxFrame f) u = _ := rxFrame_of_ok hu.launched hf (hcfg ▸ hok')
      have rest := ih (exec_keeps_ready hs hx) (exec_keeps_ready hu hx') hcfg hsim
      rw [rxAll_cons hx rfl, rxAll_cons hx' rfl, Option.map_map, Option.map_map]
      simpa [Function.comp_def, Option.map_map] using congrArg (Option.map (e :: ·)) rest
    · have stop : ∀ v : State, exec (.rxFrame f) v = .refused .reservedFrameLength := fun _ =>
        withFrame_reserved (Nat.lt_of_not_le hf) _
      simp only [rxAll, stop]

/-- An accepted start frame leaves its own length, or `Idle`. -/
theorem raStart_expectedLength {cfg : Config} {ra ra' : ReassemblyState} {L : U16} {c : Bytes} {e : Event}
    (hL : L.toNat ≤ cfg.capacity.toNat) (h : raStart L c cfg ra = .ok (ra', e)) (ha : ra'.assembling = true) :
    ra'.expectedLength = L := by
  have accepted := (raStart_fits hL c ra).symm.trans h
  rcases storeAndCheck_next accepted with ⟨-, -, hexpected, -⟩ | ⟨m, -, hidle, -⟩
  · exact hexpected
  · have hidle' : ra'.assembling = false := congrArg StatusView.assembling hidle
    rw [hidle'] at ha
    cases ha

/-- Settles O44: a start frame takes any two ReassemblyStates to ones that differ in meaningless bytes only, which no later frame
tells apart. -/
theorem supersedingStartDiscardsTheOldMessage : Obligations.SupersedingStartDiscardsTheOldMessage := by
  intro s u L p c hs hu hcfg _ _ hc hL
  obtain ⟨ra, e, hok, -⟩ := raStart_good (cfg := s.cfg) L c hs.buffer
  obtain ⟨ra', hok', hsim⟩ := raStart_like s.cfg L c hs.buffer.canonical hu.buffer.canonical ra e hok
  have hx := (exec_start hc L p s).trans (receive_of_ok hs.launched hok)
  have hx' := (exec_start hc L p u).trans (receive_of_ok hu.launched (hcfg ▸ hok'))
  exact ⟨_, _, hx, hx', rfl, hsim.status, raStart_expectedLength hL hok,
    fun fs => rxAll_events_of_similar fs (exec_keeps_ready hs hx) (exec_keeps_ready hu hx') hcfg hsim⟩

end Sys2Proof.Machine

/-! # Exceptions: which event a received frame raises, and what an abort leaves -/

namespace Sys2Proof.Machine

open Sys2Proof

/-! ## The order of the conditions (R150) -/

/-- R115: a start frame above `CAPACITY`, in either state. -/
theorem raStep_start_exceeds {L : U16} {cfg : Config} (h : cfg.capacity.toNat < L.toNat) (c : Bytes)
    (ra : ReassemblyState) : raStep (.start L c) cfg ra = .ok (returnToIdle ra, .aborted .exceedsCapacity) := if_pos h

/-- R118: a continuation frame while `Idle`, whatever its number. -/
theorem raStep_cont_idle {ra : ReassemblyState} (h : ra.assembling = false) (q : Byte) (c : Bytes) (cfg : Config) :
    raStep (.continuation q c) cfg ra = .ok (returnToIdle ra, .aborted .unexpectedContinuation) := if_pos h

/-- An accepted frame raises no exception: its message is unfinished or delivered. -/
theorem storeAndCheck_event {cfg : Config} {ra ra' : ReassemblyState} {c : Bytes} {e : Event}
    (h : storeAndCheck cfg c ra = .ok (ra', e)) : e = .stillAssembling ∨ ∃ m, e = .complete m := by
  rcases storeAndCheck_next h with ⟨he, -⟩ | ⟨m, he, -⟩
  · exact .inl he
  · exact .inr ⟨m, he⟩

/-- Of a start frame the capacity check decides the event. -/
theorem raStep_start_event {L : U16} {c : Bytes} {cfg : Config} {ra ra' : ReassemblyState} {e : Event}
    (h : raStep (.start L c) cfg ra = .ok (ra', e)) :
    (cfg.capacity.toNat < L.toNat → e = .aborted .exceedsCapacity) ∧
    (L.toNat ≤ cfg.capacity.toNat → e = .stillAssembling ∨ ∃ m, e = .complete m) := by
  refine ⟨fun hexceeds => ?_, fun hfits => ?_⟩
  · cases (raStep_start_exceeds hexceeds c ra).symm.trans h
    rfl
  · exact storeAndCheck_event ((raStep_start_fits hfits c ra).symm.trans h)

/-- Of a continuation frame the `Idle` check decides the event, and while `Assembling` the sequence check. -/
theorem raStep_cont_event {q : Byte} {c : Bytes} {cfg : Config} {ra ra' : ReassemblyState} {e : Event}
    (h : raStep (.continuation q c) cfg ra = .ok (ra', e)) :
    (ra.assembling = false → e = .aborted .unexpectedContinuation) ∧
    (ra.assembling = true → q ≠ ra.nextSeq → e = .aborted .sequenceMismatch) ∧
    (ra.assembling = true → q = ra.nextSeq → e = .stillAssembling ∨ ∃ m, e = .complete m) := by
  refine ⟨fun hidle => ?_, fun has hq => ?_, fun has hq => ?_⟩
  · cases (raStep_cont_idle hidle q c cfg).symm.trans h
    rfl
  · cases (raStep_cont_mismatch has hq c cfg).symm.trans h
    rfl
  · subst hq
    exact storeAndCheck_event ((raStep_cont_inSequence has c cfg).symm.trans h)

/-- Settles O30: the filter decides before the data is read, the kind the data decodes to before the state is, and then the
checks of `RA_STEP` for that kind. -/
theorem eventFollowsThePriorityOrder : Obligations.EventFollowsThePriorityOrder := by
  intro s f hs hf
  obtain ⟨ra, e, hok, -⟩ := rxStep_good f hs.inv hs.buffer
  refine ⟨_, e, rxFrame_of_ok hs.launched hf hok, rfl, fun hid => ?filtered, fun hid => ?given⟩
  case filtered =>
    cases (rxStep_not_isFor hid s.ra).symm.trans hok
    rfl
  case given =>
    rw [rxStep_isFor hid] at hok
    refine ⟨?unknown, ?malformed, fun lo hi p c hd => ?start, fun q c hd => ?cont⟩
    case unknown =>
      intro hshape
      have hkind : decodeKind f.data = .unknown := by
        rcases hshape with hd | ⟨b, r, hd, ha, hc⟩
        · rw [hd, decodeKind_nil]
        · rw [hd, decodeKind_other ha hc]
      rw [hkind] at hok
      cases hok
      rfl
    case malformed =>
      rintro (⟨r, hd, hr⟩ | hd)
      · rw [hd, decodeKind_shortStart hr] at hok
        cases hok
        rfl
      · rw [hd, decodeKind_shortCont] at hok
        cases hok
        rfl
    case start =>
      rw [hd, decodeKind_start] at hok
      rw [← joinBytes_toNat]
      exact raStep_start_event hok
    case cont =>
      rw [hd, decodeKind_cont] at hok
      exact raStep_cont_event hok

/-! ## What an abort leaves (R112, R151) -/

/-- An exception of `RA_STEP` returns to `Idle` and does nothing else, whichever rule raises it. -/
theorem raStep_aborted {k : FrameKind} {cfg : Config} {ra ra' : ReassemblyState} {r : ReassemblyError}
    (h : raStep k cfg ra = .ok (ra', .aborted r)) : ra' = returnToIdle ra := by
  rcases raStep_next h with ⟨he, -⟩ | ⟨-, -, hra, -⟩ | ⟨L, c, -, -, hx⟩ | ⟨q, c, -, -, -, hx⟩
  · cases he
  · exact hra
  · simpa using storeAndCheck_event hx
  · simpa using storeAndCheck_event hx

/-- Only `RESET` writes the launch bit (R171). -/
theorem exec_resetDone {i : Instr} {s t : State} (hi : i ≠ .reset) (h : exec i s = .next t) :
    t.resetDone = s.resetDone := by
  rcases exec_next h with ⟨-, f, ra, e, -, -, ht⟩ | ⟨hreset, -⟩ | ht
  · rw [ht]
  · exact absurd hreset hi
  · rw [ht]

/-- `RESET` reports no event (R170), so an operation that reports one is another. -/
theorem ne_reset_of_event {i : Instr} {s t : State} {e : Event} (h : exec i s = .next t)
    (hr : t.response = some (.event e)) : i ≠ .reset := by
  rintro rfl
  cases h
  cases hr

/-- Settles O31: only a frame given to `RA_STEP` can end in an abort, and `RESET` is no such operation. -/
theorem abortZeroesTheScalarsAndKeepsTheBuffer : Obligations.AbortZeroesTheScalarsAndKeepsTheBuffer := by
  intro s t i r h hr
  have idle : t.ra = returnToIdle s.ra := by
    cases exec_effect h with
    | given d e _ hok hr' =>
      cases hr.symm.trans hr'
      exact raStep_aborted hok
    | filtered _ hr' => cases hr.symm.trans hr'
    | reset _ hr' => cases hr.symm.trans hr'
    | apart _ hne => exact absurd hr (hne _)
  exact ⟨idle, exec_cfg h, exec_resetDone (ne_reset_of_event h hr) h⟩

end Sys2Proof.Machine

/-! # `RESET`, the launch premise, and hazards on the way to the receiver -/

namespace Sys2Proof.Machine

open Sys2Proof

/-! ## `RESET` and the launch premise (R170, R171) -/

/-- Settles O1: the buffer `RESET` leaves lists no byte, and an unlisted byte reads 0. -/
theorem resetFromAnyStateGivesAllZeroIdle : Obligations.ResetFromAnyStateGivesAllZeroIdle :=
  fun s => ⟨ReassemblyState.reset.buffer, rfl, Memory.read_nil, reset_buffer_ok s.cfg⟩

theorem rxFrame_before_reset {s : State} {f : Frame} (hl : s.resetDone = false) (hf : f.data.length ≤ 8) :
    rxFrame f s = .refused .beforeReset :=
  (withFrame_fits hf _).trans (receive_before_reset hl)

theorem wireFrame_before_reset {s : State} {d : Bytes} (hl : s.resetDone = false) (hd : d.length ≤ 8) :
    wireFrame d s = .refused .beforeReset :=
  (wireFrame_fits hd s).trans (receive_before_reset hl)

/-- The outcome of an encoder operation goes to whichever state asked for the frame. -/
theorem respondFrame_of_next {s t : State} {x : Except Fault Frame} (h : respondFrame s x = .next t) (u : State) :
    respondFrame u x = .next { u with response := t.response } := by
  obtain ⟨f, rfl, rfl⟩ := respondFrame_next h
  rfl

/-- The outcome of `SEND_MSG` is a function of the configuration, and is all it changes (R80). -/
theorem exec_sendMsg_respond (cfg : Config) (dest : Nat) (msg : Bytes) :
    ∃ r, ∀ s : State, s.cfg = cfg → exec (.sendMsg dest msg) s = .next (s.respond r) := by
  by_cases hd : legalDestination dest
  · by_cases hm : msg.length ≤ 65535
    · exact ⟨.frames (messageFrames cfg (BitVec.ofNat 3 dest) msg), fun s hs => hs ▸ exec_sendMsg_frames hd hm s⟩
    · exact ⟨_, fun s _ => (sendMsgRejectsWithoutSideEffects s dest msg).2 hd.1 hd.2 (Nat.lt_of_not_le hm)⟩
  · have outside : dest < 1 ∨ 5 < dest := by
      simp only [legalDestination, lit_destMin, lit_destMax] at hd; omega
    exact ⟨_, fun s _ => (sendMsgRejectsWithoutSideEffects s dest msg).1 outside⟩

/-- Settles O36: `receive` asks for the launch bit, and no other operation of the statement reads more than the
configuration. -/
theorem beforeResetOnlyReceivingIsRefused : Obligations.BeforeResetOnlyReceivingIsRefused := by
  refine ⟨fun s f hl hf => ⟨rxFrame_before_reset hl hf, ?wire⟩, fun s f fs hl hrx hf => ?poll, ?pure⟩
  case wire => exact (exec_wireInstr _ _).trans (wireFrame_before_reset hl hf)
  case poll =>
    rw [exec_recvPoll_held hrx]
    exact rxFrame_before_reset (s := { s with linkRx := fs, requests := .recvPoll :: s.requests }) hl hf
  case pure =>
    rintro s t u i (⟨d, L, c, rfl⟩ | ⟨d, q, c, rfl⟩ | ⟨d, rfl⟩ | ⟨d, m, rfl⟩) hcfg h
    · change respondFrame s (encodeStart s.cfg d L c) = .next t at h
      rw [hcfg] at h
      exact respondFrame_of_next h u
    · change respondFrame s (encodeCont s.cfg d q c) = .next t at h
      rw [hcfg] at h
      exact respondFrame_of_next h u
    · obtain ⟨hd, hx⟩ := withFrame_next h
      cases hx
      exact withFrame_fits hd _
    · obtain ⟨r, hr⟩ := exec_sendMsg_respond s.cfg d m
      cases (hr s rfl).symm.trans h
      exact hr u hcfg.symm

/-! ## Harmless frames in a run (R186) -/

/-- A frame that reaches `RA_STEP` as `Unknown`, or does not reach it, leaves ReassemblyState alone. -/
theorem rxStep_harmless {cfg : Config} {g : Frame} (hg : ¬ isFor cfg g ∨ decodeKind g.data = .unknown)
    (ra : ReassemblyState) : ∃ e, (e = .ignored ∨ e = .filtered) ∧ rxStep g cfg ra = .ok (ra, e) := by
  by_cases hid : isFor cfg g
  · refine ⟨.ignored, .inl rfl, ?_⟩
    rw [rxStep_isFor hid, hg.resolve_left (not_not_intro hid)]
    rfl
  · exact ⟨.filtered, .inr rfl, rxStep_not_isFor hid ra⟩

/-- The outcome held before a run takes no part in it. -/
theorem rxAll_with_response {s t : State} {fs : List Frame} {es : List Event} (h : rxAll s fs = some (es, t))
    (r : Option Response) : ∃ u, rxAll { s with response := r } fs = some (es, u) ∧ u.ra = t.ra := by
  cases fs with
  | nil => cases h; exact ⟨_, rfl, rfl⟩
  | cons f fs => exact ⟨t, h, rfl⟩

/-- Settles O46: the frame leaves ReassemblyState alone where it is put in, and each frame before it leads to a state of which
the same holds. -/
theorem unknownAndForeignFramesAreHarmlessAnywhere : Obligations.UnknownAndForeignFramesAreHarmlessAnywhere := by
  intro s t fs gs g es hs hlen hg h
  induction fs generalizing s es with
  | nil =>
    obtain ⟨e, he, hok⟩ := rxStep_harmless hg s.ra
    have hx : exec (.rxFrame g) s = _ := rxFrame_of_ok hs.launched hlen hok
    obtain ⟨u, hu, hra⟩ := rxAll_with_response (fs := gs) h (some (.event e))
    exact ⟨e, u, he, by rw [List.nil_append, rxAll_cons hx rfl, hu]; rfl, hra⟩
  | cons f fs ih =>
    obtain ⟨v, e', es', hx, hr, hrest, rfl⟩ := rxAll_cons_some h
    obtain ⟨e, u, he, hu, hra⟩ := ih v es' (exec_keeps_ready hs hx) (exec_cfg hx ▸ hg) hrest
    exact ⟨e, u, he, by rw [List.cons_append, rxAll_cons hx hr, hu]; rfl, hra⟩

/-! ## The Reliable Frame Sender (R177) -/

section

variable {link : Nat → Option LinkError} {budget k n : Nat}

/-- After `n` busy attempts, fewer than the budget, there is one more. -/
theorem sendFrame_after_busy (hn : n < budget) (busy : ∀ i, i < n → link (k + i) = some .busy) :
    ∃ attempts, sendFrame link budget k = sendFrame link (attempts + 1) (k + n) := by
  obtain ⟨attempts, rfl⟩ := Nat.exists_eq_add_of_lt hn
  refine ⟨attempts, ?_⟩
  rw [sendFrame_busy_run link n _ k busy hn.le]
  congr 1; omega

theorem sendFrame_of_success (h : link k = none) (attempts : Nat) :
    sendFrame link (attempts + 1) k = (none, k + 1) := by
  rw [sendFrame, h]

theorem sendFrame_of_initFailure (h : link k = some .initFailure) (attempts : Nat) :
    sendFrame link (attempts + 1) k = (some .initFailure, k + 1) := by
  rw [sendFrame, h]

theorem sendFrame_of_transmitFailure (h : link k = some .transmitFailure) (attempts : Nat) :
    sendFrame link (attempts + 1) k = (some .transmitFailure, k + 1) := by
  rw [sendFrame, h]

theorem sendFrame_always_busy (busy : ∀ i, i < budget → link (k + i) = some .busy) :
    sendFrame link budget k = (some .busyTimeout, k + budget) := by
  rw [sendFrame_busy_run link budget budget k busy le_rfl, Nat.sub_self]
  rfl

theorem transmitAll_cons_sent {k' : Nat} (h : sendFrame link budget k = (none, k')) (f : Frame) (fs : List Frame) :
    transmitAll link budget (f :: fs) k =
      (f :: (transmitAll link budget fs k').1, (transmitAll link budget fs k').2) := by
  rw [transmitAll, h]

/-- A frame whose sending fails does not reach the link, nor does any frame after it (log 21). -/
theorem transmitAll_cons_failed {k' : Nat} {e : SendFailure} (h : sendFrame link budget k = (some e, k'))
    (f : Frame) (fs : List Frame) : transmitAll link budget (f :: fs) k = ([], some e) := by
  rw [transmitAll, h]

end

/-- Settles O50: the busy attempts use up the budget, and the first attempt not answered `Busy` decides. -/
theorem frameSenderRetriesWhileBusy : Obligations.FrameSenderRetriesWhileBusy := by
  intro link budget k f
  refine ⟨fun n h1 hn busy => ?decided, fun busy => ?timeout⟩
  case decided =>
    obtain ⟨m, rfl⟩ := Nat.exists_eq_add_of_le' h1
    obtain ⟨attempts, hrun⟩ := sendFrame_after_busy hn fun i hi => busy i (Nat.succ_lt_succ hi)
    refine ⟨fun h => ?_, fun h => ?_, fun h => ?_⟩
    · have sent := hrun.trans (sendFrame_of_success h attempts)
      exact ⟨sent, transmitAll_cons_sent sent f []⟩
    · have failed := hrun.trans (sendFrame_of_initFailure h attempts)
      exact ⟨failed, transmitAll_cons_failed failed f []⟩
    · have failed := hrun.trans (sendFrame_of_transmitFailure h attempts)
      exact ⟨failed, transmitAll_cons_failed failed f []⟩
  case timeout =>
    have failed := sendFrame_always_busy busy
    exact ⟨failed, transmitAll_cons_failed failed f []⟩

/-! ## A message cut short (R180, R181) -/

/-- A failing link cuts off a proper initial part of the frames. -/
theorem transmitAll_failed {link : Nat → Option LinkError} {budget k : Nat} {fs sent : List Frame} {e : SendFailure}
    (h : transmitAll link budget fs k = (sent, some e)) : sent.length < fs.length ∧ sent = fs.take sent.length := by
  induction fs generalizing k sent with
  | nil => cases h
  | cons f fs ih =>
    match hsend : sendFrame link budget k with
    | (some _, _) =>
      cases (transmitAll_cons_failed hsend f fs).symm.trans h
      exact ⟨Nat.zero_lt_succ _, rfl⟩
    | (none, _) =>
      obtain ⟨rfl, hrest⟩ := Prod.mk.inj ((transmitAll_cons_sent hsend f fs).symm.trans h)
      obtain ⟨hlt, htake⟩ := ih (Prod.ext rfl hrest)
      exact ⟨Nat.succ_lt_succ hlt, congrArg (f :: ·) htake⟩

/-- An initial part of a run is a run, with the events of that part. -/
theorem rxAll_take {s t : State} {fs : List Frame} {es : List Event} (h : rxAll s fs = some (es, t)) (n : Nat) :
    ∃ u, rxAll s (fs.take n) = some (es.take n, u) := by
  induction n generalizing s fs es with
  | zero => exact ⟨_, rfl⟩
  | succ n ih =>
    cases fs with
    | nil => cases h; exact ⟨_, rfl⟩
    | cons f fs =>
      obtain ⟨v, e, es', hx, hr, hrest, rfl⟩ := rxAll_cons_some h
      obtain ⟨u, hu⟩ := ih hrest
      exact ⟨u, by rw [List.take_succ_cons, rxAll_cons hx hr, hu]; rfl⟩

theorem contFrames_no_start {sender : Config} {dest : Dest} {rest : Bytes} {q : Byte} {g : Frame}
    (hg : g ∈ contFrames sender dest rest q) (L : U16) (c : Bytes) : decodeKind g.data ≠ .start L c := by
  obtain ⟨j, -, rfl⟩ := List.mem_map.1 hg
  rw [contFrame, paddedTo8_contData, decodeKind_contData]
  nofun

/-- The first `n + 1` frames of a message, when some are missing, are each answered `StillAssembling` and counted. -/
theorem messageFrames_stall (sender : Config) {msg : Bytes} {s : State} {n : Nat} (hs : s.Ready)
    (hcap : msg.length ≤ s.cfg.capacity.toNat) (hn : n + 1 < (messageFrames sender s.cfg.selfId msg).length) :
    ∃ t : State, rxAll s ((messageFrames sender s.cfg.selfId msg).take (n + 1)) =
        some (List.replicate (n + 1) .stillAssembling, t) ∧
      t.ra.assembling = true ∧ t.ra.expectedLength.toNat = msg.length ∧ t.ra.nextSeq.toNat = (n + 1) % 256 := by
  obtain ⟨u, hu, -⟩ := messageFrames_deliver sender hs hcap
  obtain ⟨t, ht⟩ := rxAll_take hu (n + 1)
  rw [List.take_append_of_le_length (by rw [List.length_replicate]; omega), List.take_replicate,
    Nat.min_eq_left (by omega)] at ht
  obtain ⟨has, hL, hq⟩ := sequenceNumberCountsAcceptedFrames s t _ _ _ _ _ hs
    (decodeKind_startFrame sender s.cfg.selfId msg) (idOf_toNat _)
    (fun g hg _ => contFrames_no_start (List.mem_of_mem_take hg)) ht fun e he => .inl (List.eq_of_mem_replicate he)
  refine ⟨t, ht, has, ?_, ?_⟩
  · have := s.cfg.capacity.isLt
    rw [hL, BitVec.toNat_ofNat]; omega
  · rw [hq, List.count_replicate_self, Nat.add_comm]

/-- Settles O51: the frames that reached the link are an initial part of a message's frames, short of the one that would have
delivered it. -/
theorem partialTransmissionStallsTheReceiver : Obligations.PartialTransmissionStallsTheReceiver := by
  intro s sender msg fs sent link budget k e hs hl hcap hsend hlink
  obtain ⟨hlt, htake⟩ := transmitAll_failed hlink
  refine ⟨hlt, htake, fun hne => ?_⟩
  obtain ⟨n, hn⟩ := Nat.exists_eq_add_one_of_ne_zero (mt List.length_eq_zero_iff.1 hne)
  have hfs : fs = messageFrames sender.cfg s.cfg.selfId msg := by
    simpa using hsend.symm.trans (exec_sendMsg_to hl.1 hcap sender)
  rw [hn] at hlt htake ⊢
  rw [htake, hfs]
  exact messageFrames_stall sender.cfg hs hcap (hfs ▸ hlt)

end Sys2Proof.Machine
